-- ==== Sys2Proof/Word.lean ====
section
/-! DEFINITION. The machine word and the addressing modes (spec/00_scope.md R6, R7; spec/30_encoding.md R54). -/

namespace Sys2Proof

/-- A Word: a signed 64-bit integer in two's complement (R6). `BitVec.toInt` is the integer it stands for; every
memory cell, `pc`, `rb`, operand, result and port value is one. -/
abbrev Word := BitVec 64

/-- `wrap64 z`: the unique Word congruent to the integer `z` modulo 2^64 (R6). -/
def wrap64 (z : Int) : Word := BitVec.ofInt 64 z

/-- A parameter mode (R54): how an operand cell is turned into a value or a write target. -/
inductive Mode where
  /-- Digit 0: the operand is an address. -/
  | pointer
  /-- Digit 1: the operand is the value itself; illegal as a write target (R60). -/
  | value
  /-- Digit 2: the operand plus the relative base is an address. -/
  | relative
deriving DecidableEq, Repr

end Sys2Proof
end

