-- ==== Sys2Proof/Config.lean ====
section
/-! DEFINITION. The parameters of the block (spec/00_scope.md R5) and the model's one free value. -/

namespace Sys2Proof

/-- The parameters of R5 that a model takes as arguments. They are configuration, not state of the block (R22); the
machine state carries them so that every statement holds for every setting (log entry 3). -/
structure Config where
  /-- OVF_TRAPS: a signed overflow faults (`true`) or wraps (`false`, this hardware's setting). -/
  ovfTraps : Bool
  /-- MEM_CAP: the number of cells memory can hold; `none` is the default, unbounded (every non-negative Word). -/
  memCap : Option Nat
  /-- START_ADDRESS: the value LOAD and RESET(Full) put in `pc`. -/
  startAddress : Word
deriving DecidableEq, Repr

/-- The values of R5: OVF_TRAPS false, MEM_CAP unbounded, START_ADDRESS 0. -/
def Config.standard : Config := ⟨false, none, 0⟩

/-- OPCODE_MODULUS (R5). -/
def Config.opcodeModulus : Nat := 100

/-- MODE_RADIX (R5). -/
def Config.modeRadix : Nat := 10

/-- What the environment delivers on the `n`-th read of an input port whose behaviour is left open: "what values arrive
is the environment's choice and no rule of the block constrains it" (spec/43_io.md R95). A free value: no body, so
nothing can be proved of it (DESIGN CHOICE, log entry 4). -/
opaque Config.freeInput : Nat → Word

end Sys2Proof
end

