-- ==== Sys2Proof/Syntax.lean ====
section
/-! DEFINITION. The instruction set: one constructor per row of spec/opcode_table.json (spec/30_encoding.md R53). -/

namespace Sys2Proof

/-- A decoded instruction: the operation and its three modes, as `Decode` of R57 returns them. All three modes are
kept for every operation ("exactly three parameter modes ... regardless of how many parameters the operation actually
uses", R54). The raw operands are no part of it: operand cells are read when the instruction executes (R61;
spec/20_memory.md R44; log entry 11). -/
inductive Instr where
  /-- `End` (99): stop the machine (R90). -/
  | endOp (m1 m2 m3 : Mode)
  /-- `Add` (1): R91. -/
  | add (m1 m2 m3 : Mode)
  /-- `Mul` (2): R92. -/
  | mul (m1 m2 m3 : Mode)
  /-- `Input` (3): R93. -/
  | input (m1 m2 m3 : Mode)
  /-- `Output` (4): R94. -/
  | output (m1 m2 m3 : Mode)
  /-- `JumpIfNotZero` (5): R100. -/
  | jumpIfNotZero (m1 m2 m3 : Mode)
  /-- `JumpIfZero` (6): R101. -/
  | jumpIfZero (m1 m2 m3 : Mode)
  /-- `LessThan` (7): R102. -/
  | lessThan (m1 m2 m3 : Mode)
  /-- `EqualTo` (8): R103. -/
  | equalTo (m1 m2 m3 : Mode)
  /-- `AdjustRelativeBase` (9): R104. -/
  | adjustRelativeBase (m1 m2 m3 : Mode)
deriving DecidableEq, Repr

end Sys2Proof
end

