-- ==== Sys2Proof/WellFormed.lean ====
section
/-! DEFINITION. Which instructions are legal to execute: no write target in Value mode (spec/30_encoding.md R60). The
decoder accepts the others too, and executing one raises WriteModeError (log entry 22). -/

namespace Sys2Proof

/-- The mode of the write target, for the operations that have one (R56). -/
def Instr.targetMode : Instr → Option Mode
  | .endOp _ _ _ => none
  | .add _ _ m3 => some m3
  | .mul _ _ m3 => some m3
  | .input m1 _ _ => some m1
  | .output _ _ _ => none
  | .jumpIfNotZero _ _ _ => none
  | .jumpIfZero _ _ _ => none
  | .lessThan _ _ m3 => some m3
  | .equalTo _ _ m3 => some m3
  | .adjustRelativeBase _ _ _ => none

/-- "Value is invalid as a write target" (R60): the instruction has no Value-mode target. -/
def Instr.wellFormed (i : Instr) : Bool := i.targetMode != some .value

end Sys2Proof
end

