-- ==== Sys2Proof/Decode.lean ====
section
/-! DEFINITION. The decoder (spec/30_encoding.md R50 to R62), total on every Word, and the encoder written from the same
tables. The encoding is decimal: fields are digit groups of the opcode cell's value. -/

namespace Sys2Proof

/-- `digit(v, k)`: decimal digit `k` of a non-negative value, digit 0 the units (spec/00_scope.md R7). -/
def digit (v k : Nat) : Nat := v / Config.modeRadix ^ k % Config.modeRadix

/-- Why a cell is no instruction (R57, R59). -/
inductive DecodeError where
  /-- A negative cell, or a remainder that is none of the ten opcodes (R52). -/
  | unknownOpcode
  /-- A legal opcode with a mode digit 3 to 9 (R54). -/
  | unknownMode
deriving DecidableEq, Repr

/-- The opcode map of R53: the operation whose number is `v mod 100`, if any. -/
def operationOf (op : Nat) : Option (Mode → Mode → Mode → Instr) :=
  match op with
  | 99 => some .endOp
  | 1 => some .add
  | 2 => some .mul
  | 3 => some .input
  | 4 => some .output
  | 5 => some .jumpIfNotZero
  | 6 => some .jumpIfZero
  | 7 => some .lessThan
  | 8 => some .equalTo
  | 9 => some .adjustRelativeBase
  | _ => none

/-- The mode table of R54: digits 0, 1, 2; any other digit is no mode. -/
def modeOf (d : Nat) : Option Mode :=
  match d with
  | 0 => some .pointer
  | 1 => some .value
  | 2 => some .relative
  | _ => none

/-- `Decode(v)` (R57): negative cells and unknown remainders first, then all three mode digits, used or not; digits at
positions 5 and above are not examined (R58). -/
def decode (v : Word) : Except DecodeError Instr :=
  if v.toInt < 0 then .error .unknownOpcode
  else match operationOf (v.toNat % Config.opcodeModulus) with
    | none => .error .unknownOpcode
    | some op =>
      match modeOf (digit v.toNat 2), modeOf (digit v.toNat 3), modeOf (digit v.toNat 4) with
      | some m1, some m2, some m3 => .ok (op m1 m2 m3)
      | _, _, _ => .error .unknownMode

/-- The opcode number of an operation (R53). -/
def Instr.opcode : Instr → Nat
  | .endOp _ _ _ => 99
  | .add _ _ _ => 1
  | .mul _ _ _ => 2
  | .input _ _ _ => 3
  | .output _ _ _ => 4
  | .jumpIfNotZero _ _ _ => 5
  | .jumpIfZero _ _ _ => 6
  | .lessThan _ _ _ => 7
  | .equalTo _ _ _ => 8
  | .adjustRelativeBase _ _ _ => 9

/-- The three modes, `M1`, `M2`, `M3` (R51). -/
def Instr.modes : Instr → Mode × Mode × Mode
  | .endOp m1 m2 m3 => (m1, m2, m3)
  | .add m1 m2 m3 => (m1, m2, m3)
  | .mul m1 m2 m3 => (m1, m2, m3)
  | .input m1 m2 m3 => (m1, m2, m3)
  | .output m1 m2 m3 => (m1, m2, m3)
  | .jumpIfNotZero m1 m2 m3 => (m1, m2, m3)
  | .jumpIfZero m1 m2 m3 => (m1, m2, m3)
  | .lessThan m1 m2 m3 => (m1, m2, m3)
  | .equalTo m1 m2 m3 => (m1, m2, m3)
  | .adjustRelativeBase m1 m2 m3 => (m1, m2, m3)

/-- `length(operation)` in cells (R55); the operand cells used are `length - 1`. -/
def Instr.length : Instr → Nat
  | .endOp _ _ _ => 1
  | .add _ _ _ => 4
  | .mul _ _ _ => 4
  | .input _ _ _ => 2
  | .output _ _ _ => 2
  | .jumpIfNotZero _ _ _ => 3
  | .jumpIfZero _ _ _ => 3
  | .lessThan _ _ _ => 4
  | .equalTo _ _ _ => 4
  | .adjustRelativeBase _ _ _ => 2

/-- The digit of a mode (R54). -/
def Mode.digit : Mode → Nat
  | .pointer => 0
  | .value => 1
  | .relative => 2

/-- The canonical opcode cell `OP + 100*M1 + 1000*M2 + 10000*M3` (opcode_table.json, `canonical_cell`; R66). -/
def encode (i : Instr) : Word :=
  let (m1, m2, m3) := i.modes
  BitVec.ofNat 64 (i.opcode + 100 * m1.digit + 1000 * m2.digit + 10000 * m3.digit)

/-- Cell `k` (the opcode cell is cell 0) of an instruction given as one number of `nbits` bits, bits above them zero:
one cell is 64 bits and the first cell holds the least significant ones (log entry 10). -/
def tableCell (nbits w k : Nat) : Word := BitVec.ofNat 64 ((w % 2 ^ nbits) >>> (64 * k))

/-- The instruction the decoder reads from an opcode-table word. -/
def decodeTableWord (nbits w : Nat) : Option Instr :=
  match decode (tableCell nbits w 0) with
  | .ok i => some i
  | .error _ => none

end Sys2Proof
end

