-- ==== Sys2Proof/Machine/State.lean ====
section
/-! DEFINITION. The machine state as plain data (spec/10_state.md), the reasons a step can give no next state, and the
state after reset. -/

namespace Sys2Proof.Machine

/-- Execution memory `mem` (R13): the cells that are not zero, as (address, Word) pairs with addresses strictly rising.
An unlisted address reads as 0 (R13, R34). A cell is one Word and has no bytes (R37; log entry 9). -/
abbrev Memory := List (Nat × Word)

/-- The canonical form: addresses strictly rising, no listed cell zero. -/
def Memory.wf : Memory → Bool
  | [] => true
  | (a, w) :: m => w != 0 && m.all (fun c => a < c.1) && Memory.wf m

/-- Direction of a port, in the record of an I/O fault (R130). -/
inductive IoDir where
  | input
  | output
deriving DecidableEq, Repr

/-- Sub-kind of an I/O fault (R130, spec/43_io.md R95). -/
inductive IoKind where
  | noCapability
  | parseFailure
  | readFailure
  | channelClosed
deriving DecidableEq, Repr

/-- The fault kinds of R130. Each one stops the machine by the fault entry of R140, which is a next state. -/
inductive FaultKind where
  | addressError
  | unknownOpcode
  | unknownMode
  | writeModeError
  | ioError
  | arithOverflow
  | capacityError
deriving DecidableEq, Repr

/-- The fault record (R18). -/
structure FaultRecord where
  kind : FaultKind
  /-- The `pc` of the faulting instruction. -/
  addr : Word
  /-- The raw opcode cell, when the fetch succeeded. -/
  value : Option Word
  /-- The offending address of an AddressError or CapacityError. -/
  bad : Option Word
  /-- Direction and sub-kind of an IoError. -/
  io : Option (IoDir × IoKind)
deriving DecidableEq, Repr

/-- The status register (R17), and the time before it exists. -/
inductive Status where
  /-- No value of the register: no LOAD has yet constructed the block, which then has no defined state and accepts no
  command but LOAD (R23, R110; the row "(none)" of R117). The other fields mean nothing. -/
  | unloaded
  | ready
  | running
  | halted
  | faulted
deriving DecidableEq, Repr

/-- An answer of the input port to one `InRead()` (spec/43_io.md R95). -/
inductive InAnswer where
  | value (x : Word)
  | error (k : IoKind)
  | notReady
deriving DecidableEq, Repr

/-- What the input port answers once its script is used up: the same answer each time, or a word the environment
chooses freely (`Config.freeInput`; log entry 4). -/
inductive InTail where
  | always (a : InAnswer)
  | free
deriving DecidableEq, Repr

/-- The input port's environment: the answers to come, the answer afterwards, and how many free words were drawn. -/
structure InPort where
  script : List InAnswer
  tail : InTail
  drawn : Nat
deriving DecidableEq, Repr

/-- The two errors an output port can answer (R96). -/
inductive OutError where
  | noCapability
  | channelClosed
deriving DecidableEq, Repr

/-- An answer of the output port to one `OutWrite(x)` (R96). -/
inductive OutAnswer where
  | accepted
  | error (k : OutError)
  | notReady
deriving DecidableEq, Repr

/-- The output port's environment: the answers to come and the answer afterwards (log entry 5). -/
structure OutPort where
  script : List OutAnswer
  tail : OutAnswer
deriving DecidableEq, Repr

/-- The whole state (R10's table, the ports of R95 and R96, and the model's own fields `waiting` and `config`). -/
structure State where
  /-- Program counter (R11). -/
  pc : Word
  /-- Relative base (R12). -/
  rb : Word
  /-- Execution memory (R13). -/
  mem : Memory
  /-- `mem_len`, the current length of execution memory (R14). -/
  memLen : Nat
  /-- Program image, cell 0 first (R15). -/
  image : List Word
  /-- Execution trace, oldest first (R16). -/
  trace : List (Word × Word)
  /-- Status register (R17). -/
  status : Status
  /-- Fault record (R18); `none` is "invalid". -/
  fault : Option FaultRecord
  /-- The Words the output port accepted, oldest first: the block's observable output (R96). -/
  output : List Word
  /-- The input port's environment (R95). -/
  inPort : InPort
  /-- The output port's environment (R96). -/
  outPort : OutPort
  /-- The port a step waits on: no step is enabled until it answers (R97, R150; log entry 8). -/
  waiting : Option IoDir
  /-- The parameters of R5 (log entry 3). -/
  config : Config
deriving DecidableEq, Repr

/-- A machine that has stopped with a fault. -/
inductive Fault where
  /-- Raised by `step`, and by no instruction's meaning, when it is asked of a machine whose status is Faulted: the
  machine executes nothing until LOAD or RESET (R114, R142), and the record (as `State.fault` holds it) is what the run
  returns (R80, R113). Safe: the spec gives no next state here. -/
  | stopped (record : Option FaultRecord)
deriving DecidableEq, Repr

/-- A step that is not performed. -/
inductive Refusal where
  /-- Raised by an arm of `exec` for an instruction without a meaning; no arm of this model raises it. Safe. -/
  | notModelled (mnemonic : String)
  /-- Raised by `step`, and by no instruction's meaning, when the status is Halted: STEP and RUN are refused until SETPC
  or RESET (R114, R117). Safe: the spec refuses the step. -/
  | halted
  /-- Raised by `step`, and by no instruction's meaning, before the first LOAD: no block exists (R110). Safe: the spec
  accepts no command there but LOAD. -/
  | notLoaded
deriving DecidableEq, Repr

/-- The machine after `LOAD` of the empty image with the default parameters (R23, R160): the block has no other reset
before a program is loaded. The ports' wiring is the host's (R23) and is chosen here (log entries 2, 4, 5). -/
def State.reset : State where
  pc := Config.standard.startAddress
  rb := 0
  mem := []
  memLen := 0
  image := []
  trace := []
  status := .ready
  fault := none
  output := []
  inPort := ⟨[], .free, 0⟩
  outPort := ⟨[], .accepted⟩
  waiting := none
  config := Config.standard

/-- Before the first LOAD (R110): the block has no defined state, so the other fields are only placeholders. -/
def State.beforeLoad : State := { State.reset with status := .unloaded }

/-! Named updates, one per field that a step or a command writes. -/

def State.setPc (s : State) (a : Word) : State := { s with pc := a }
def State.setRb (s : State) (w : Word) : State := { s with rb := w }
def State.setMem (s : State) (m : Memory) : State := { s with mem := m }
def State.setMemLen (s : State) (n : Nat) : State := { s with memLen := n }
def State.setTrace (s : State) (t : List (Word × Word)) : State := { s with trace := t }
def State.setStatus (s : State) (x : Status) : State := { s with status := x }
def State.setFault (s : State) (f : Option FaultRecord) : State := { s with fault := f }
def State.setOutput (s : State) (ws : List Word) : State := { s with output := ws }
def State.setInPort (s : State) (p : InPort) : State := { s with inPort := p }
def State.setOutPort (s : State) (p : OutPort) : State := { s with outPort := p }
def State.setWaiting (s : State) (d : Option IoDir) : State := { s with waiting := d }

end Sys2Proof.Machine
end

