-- ==== Sys2Proof/Machine/Flags.lean ====
section
/-! DEFINITION. Conditions. The machine has no flags (spec/10_state.md R20): the conditions are the overflow test of the
arithmetic (spec/00_scope.md R7), the comparison results that go to memory (spec/45_compare.md) and the jumps' test
against zero (spec/44_jumps.md). -/

namespace Sys2Proof.Machine

/-- The exact result is a Word: it lies in `-2^63 .. 2^63 - 1` (R6, R7). -/
def fitsWord (z : Int) : Bool := decide (-2 ^ 63 ≤ z ∧ z < 2 ^ 63)

/-- `if x < y then 1 else 0`, on signed values (R102). -/
def lessThanCell (x y : Word) : Word := if x.toInt < y.toInt then 1 else 0

/-- `if x == y then 1 else 0`, on whole Words (R103). -/
def equalCell (x y : Word) : Word := if x.toInt = y.toInt then 1 else 0

/-- The condition of JumpIfNotZero (R100). -/
def isNonZero (c : Word) : Bool := c.toInt != 0

/-- The condition of JumpIfZero (R101). -/
def isZero (c : Word) : Bool := c.toInt == 0

end Sys2Proof.Machine
end

