-- ==== Sys2Proof/Machine/Ops.lean ====
section
/-! DEFINITION. The shared operations: memory cells, the memory primitives with growth, checked arithmetic, the two
ports, the trace, taking a fault, and the common path of an instruction. -/

namespace Sys2Proof.Machine

/-! ### Memory cells (spec/10_state.md R13) -/

/-- The Word at an address; 0 where no cell is listed. -/
def Memory.read : Memory → Nat → Word
  | [], _ => 0
  | (b, w) :: m, a => if b = a then w else Memory.read m a

/-- Write one cell, keeping the canonical form: addresses rise and a zero cell is not listed. -/
def Memory.write : Memory → Nat → Word → Memory
  | [], a, v => if v = 0 then [] else [(a, v)]
  | (b, w) :: m, a, v =>
    if a < b then (if v = 0 then (b, w) :: m else (a, v) :: (b, w) :: m)
    else if a = b then (if v = 0 then m else (a, v) :: m)
    else (b, w) :: Memory.write m a v

/-- The cells of a program image laid out from address `k` (R23: `mem` is a copy of the image). -/
def Memory.ofImage : Nat → List Word → Memory
  | _, [] => []
  | k, w :: ws => if w = 0 then Memory.ofImage (k + 1) ws else (k, w) :: Memory.ofImage (k + 1) ws

/-! ### Results of an operation inside an instruction -/

/-- What `raise K(info)` says beside the instruction's address and opcode cell (spec/00_scope.md R8, R130). -/
structure Cause where
  kind : FaultKind
  bad : Option Word
  io : Option (IoDir × IoKind)
deriving DecidableEq, Repr

/-- An operation inside an instruction gives a value and the state so far, raises a fault, or finds a port not ready
(which one, and the ports as the poll leaves them). -/
inductive Result (α : Type) where
  | ok (x : α) (s : State)
  | raise (c : Cause) (s : State)
  | blocked (d : IoDir) (i : InPort) (o : OutPort)
deriving DecidableEq, Repr

/-- Continue with the value; a raise or a block performs none of the later lines (R8, R79). -/
def Result.bind {α β : Type} (r : Result α) (f : α → State → Result β) : Result β :=
  match r with
  | .ok x s => f x s
  | .raise c s => .raise c s
  | .blocked d i o => .blocked d i o

/-- A raise takes back what was done since `s`: a fault of the `pc` update, which comes after the write, leaves memory,
`rb` and the output port as they were before it (spec/60_exceptions.md R139, decision D26; log entry 12). -/
def Result.undoTo {α : Type} (r : Result α) (s : State) : Result α :=
  match r with
  | .ok x t => .ok x t
  | .raise c _ => .raise c s
  | .blocked d i o => .blocked d i o

/-! ### The memory primitives (spec/20_memory.md R32 to R35) -/

/-- The address is below MEM_CAP (R30); every address is when MEM_CAP is unbounded. -/
def belowCap (c : Config) (a : Nat) : Bool :=
  match c.memCap with
  | none => true
  | some cap => decide (a < cap)

/-- Growth (R34): an access at `a ≥ mem_len` sets `mem_len` to `a + 1`; the new cells are zero. -/
def grow (s : State) (a : Nat) : State := if s.memLen ≤ a then s.setMemLen (a + 1) else s

/-- `MemRead(a, 1)` (R32). -/
def memRead (a : Word) (s : State) : Result Word :=
  if a.toInt < 0 then .raise ⟨.addressError, some a, none⟩ s
  else if belowCap s.config a.toNat then .ok (s.mem.read a.toNat) (grow s a.toNat)
  else .raise ⟨.capacityError, some a, none⟩ s

/-- `MemWrite(a, 1, v)` (R33): the answer is the previous value if the address existed, none if growth created it. -/
def memWrite (a v : Word) (s : State) : Result (Option Word) :=
  if a.toInt < 0 then .raise ⟨.addressError, some a, none⟩ s
  else if belowCap s.config a.toNat then
    .ok (if s.memLen ≤ a.toNat then none else some (s.mem.read a.toNat))
      ((grow s a.toNat).setMem (s.mem.write a.toNat v))
  else .raise ⟨.capacityError, some a, none⟩ s

/-! ### Arithmetic (spec/00_scope.md R7) -/

/-- The exact result as a Word: wrapped, or ArithOverflow when OVF_TRAPS is set and it is not a Word. -/
def narrow (z : Int) (s : State) : Result Word :=
  if s.config.ovfTraps && !fitsWord z then .raise ⟨.arithOverflow, none, none⟩ s else .ok (wrap64 z) s

/-- `add64(x, y)`. -/
def add64 (x y : Word) (s : State) : Result Word := narrow (x.toInt + y.toInt) s

/-- `mul64(x, y)`. -/
def mul64 (x y : Word) (s : State) : Result Word := narrow (x.toInt * y.toInt) s

/-- `pc <- add64(a, len)`, the last action of an instruction that does not jump (spec/40_step_engine.md R78). -/
def advance (len : Nat) (s : State) : Result Unit :=
  (add64 s.pc (BitVec.ofNat 64 len) s).bind fun a s => .ok () (s.setPc a)

/-- The end of an instruction that stores (R77, R78): its one write and the new `pc`; when either faults, no cell has
changed (R139). -/
def store (a v : Word) (len : Nat) (s : State) : Result Unit :=
  ((memWrite a v s).bind fun _ t => advance len t).undoTo s

/-! ### The ports (spec/43_io.md R95, R96) -/

/-- One poll of the input port: its answer, and the port afterwards. -/
def pollIn (p : InPort) : InAnswer × InPort :=
  match p.script with
  | a :: rest => (a, { p with script := rest })
  | [] =>
    match p.tail with
    | .always a => (a, p)
    | .free => (.value (Config.freeInput p.drawn), { p with drawn := p.drawn + 1 })

/-- One poll of the output port. -/
def pollOut (p : OutPort) : OutAnswer × OutPort :=
  match p.script with
  | a :: rest => (a, { p with script := rest })
  | [] => (p.tail, p)

/-- The sub-kind under which an output error is recorded (R130). -/
def outErrorKind : OutError → IoKind
  | .noCapability => .noCapability
  | .channelClosed => .channelClosed

/-- `InRead()` (R95). -/
def inRead (s : State) : Result Word :=
  match pollIn s.inPort with
  | (.value x, p) => .ok x (s.setInPort p)
  | (.error k, p) => .raise ⟨.ioError, none, some (.input, k)⟩ (s.setInPort p)
  | (.notReady, p) => .blocked .input p s.outPort

/-- `OutWrite(x)` (R96): an accepted Word joins the observable output. -/
def outWrite (x : Word) (s : State) : Result Unit :=
  match pollOut s.outPort with
  | (.accepted, p) => .ok () ((s.setOutPort p).setOutput (s.output ++ [x]))
  | (.error k, p) => .raise ⟨.ioError, none, some (.output, outErrorKind k)⟩ (s.setOutPort p)
  | (.notReady, p) => .blocked .output s.inPort p

/-! ### Taking a fault, and the common path -/

/-- Fault entry (spec/60_exceptions.md R140), for every kind: the record is written, the status becomes Faulted, `pc`
stays the instruction's address, nothing else is saved. There is no return from it but RESET and LOAD (R142), which are
host commands (Commands.lean). A step that waited has ended. -/
def enterFault (value : Option Word) (c : Cause) (s : State) : State :=
  ((s.setFault (some ⟨c.kind, s.pc, value, c.bad, c.io⟩)).setStatus .faulted).setWaiting none

/-- A step whose port is not ready (R79, R97): nothing of the block changes; the environment has answered one poll, and
the step waits on the port. -/
def waitOnPort (d : IoDir) (i : InPort) (o : OutPort) (s : State) : State :=
  ((s.setInPort i).setOutPort o).setWaiting (some d)

/-- A step is enabled (R97): none waits, or the port it waits on answers. -/
def portAnswers (s : State) : Bool :=
  match s.waiting with
  | none => true
  | some .input => (pollIn s.inPort).1 != .notReady
  | some .output => (pollOut s.outPort).1 != .notReady

/-- The port a step waits on is asked once more and is still not ready (R97): the block does not change. -/
def pollAgain (s : State) : State :=
  match s.waiting with
  | none => s
  | some .input => s.setInPort (pollIn s.inPort).2
  | some .output => s.setOutPort (pollOut s.outPort).2

/-- The trace entry of an executed instruction (R73). -/
def addTrace (a v : Word) (s : State) : State := s.setTrace (s.trace ++ [(a, v)])

/-- The common path of R70 around one operation: the opcode cell `v` is fetched at `pc`, the trace entry is appended,
the operation runs. The whole step is one transition (R93, R97): a blocked operation leaves the state as it was. -/
def runInstr (body : State → Result Unit) (s : State) : Host.Outcome State Fault Refusal :=
  match memRead s.pc s with
  | .raise c s1 => .next (enterFault none c s1)
  | .blocked d i o => .next (waitOnPort d i o s)
  | .ok v s1 =>
    match body (addTrace s.pc v s1) with
    | .ok _ s2 => .next (s2.setWaiting none)
    | .raise c s2 => .next (enterFault (some v) c s2)
    | .blocked d i o => .next (waitOnPort d i o s)

/-- The fault kind of a decode error (R72). -/
def decodeCause : DecodeError → Cause
  | .unknownOpcode => ⟨.unknownOpcode, none, none⟩
  | .unknownMode => ⟨.unknownMode, none, none⟩

/-- Fetch and decode at `pc` (R70 to R72): the instruction, or the state after the fault the fetch or the decoder
raises. -/
def fetchDecode (s : State) : Except State Instr :=
  match memRead s.pc s with
  | .raise c s1 => .error (enterFault none c s1)
  | .blocked d i o => .error (waitOnPort d i o s)
  | .ok v s1 =>
    match decode v with
    | .error e => .error (enterFault (some v) (decodeCause e) s1)
    | .ok i => .ok i

/-- Store cells from address `a` on, as a host's POKE of each would; a cell that has no address is skipped. -/
def storeCells (a : Word) : List Word → State → State
  | [], s => s
  | w :: ws, s =>
    storeCells (a + 1) ws
      (match memWrite a w s with
        | .ok _ s' => s'
        | .raise _ _ => s
        | .blocked _ _ _ => s)

/-- A status in which a step is admitted (R70, R114), for placing an instruction to run next. -/
def admitted : Status → Status
  | .unloaded => .ready
  | .running => .running
  | .ready => .ready
  | .halted => .ready
  | .faulted => .ready

end Sys2Proof.Machine
end

