-- ==== Sys2Proof/Machine/Operands.lean ====
section
/-! DEFINITION. Operand fetch and resolution (spec/40_step_engine.md R74 to R76), every operand form. -/

namespace Sys2Proof.Machine

/-- `Fetch(k) = MemRead(add64(a, k), 1)`, the raw operand `k` (R74). -/
def fetchOperand (k : Nat) (s : State) : Result Word := (add64 s.pc (BitVec.ofNat 64 k) s).bind memRead

/-- `Value(m, p)` (R75). -/
def resolveValue (m : Mode) (p : Word) (s : State) : Result Word :=
  match m with
  | .pointer => memRead p s
  | .value => .ok p s
  | .relative => (add64 p s.rb s).bind memRead

/-- `Target(m, p)` (R76); the sign of the address is left to the write. -/
def resolveTarget (m : Mode) (p : Word) (s : State) : Result Word :=
  match m with
  | .pointer => .ok p s
  | .value => .raise ⟨.writeModeError, none, none⟩ s
  | .relative => add64 p s.rb s

/-- `Value(m, Fetch(k))`: source operand `k`, its cell fetched and at once resolved (R77). -/
def source (k : Nat) (m : Mode) (s : State) : Result Word := (fetchOperand k s).bind (resolveValue m)

/-- `Target(m, Fetch(k))`: the address of target operand `k`. -/
def destination (k : Nat) (m : Mode) (s : State) : Result Word := (fetchOperand k s).bind (resolveTarget m)

/-- The shape of Add, Mul, LessThan and EqualTo: two sources, a target, the result, the one write, `pc` (R77). -/
def storeResult (op : Word → Word → State → Result Word) (m1 m2 m3 : Mode) (s : State) : Result Unit :=
  (source 1 m1 s).bind fun x s =>
  (source 2 m2 s).bind fun y s =>
  (destination 3 m3 s).bind fun t s =>
  (op x y s).bind fun r s =>
  store t r 4 s

/-- The shape of the two jumps: operand 2 is fetched and resolved only when the jump is taken (R77, R100). -/
def jumpWhen (cond : Word → Bool) (m1 m2 : Mode) (s : State) : Result Unit :=
  (source 1 m1 s).bind fun c s =>
  if cond c then (source 2 m2 s).bind fun t s => .ok () (s.setPc t) else advance 3 s

end Sys2Proof.Machine
end

