-- ==== Sys2Proof/Machine/Arithmetic.lean ====
section
/-! DEFINITION. Add and Mul (spec/42_arithmetic.md). -/

namespace Sys2Proof.Machine

/-- `Add` (R91). -/
def execAdd (m1 m2 m3 : Mode) (s : State) : Host.Outcome State Fault Refusal :=
  runInstr (storeResult add64 m1 m2 m3) s

/-- `Mul` (R92). -/
def execMul (m1 m2 m3 : Mode) (s : State) : Host.Outcome State Fault Refusal :=
  runInstr (storeResult mul64 m1 m2 m3) s

end Sys2Proof.Machine
end

