-- ==== Sys2Proof/Machine/Compare.lean ====
section
/-! DEFINITION. LessThan and EqualTo (spec/45_compare.md). -/

namespace Sys2Proof.Machine

/-- `LessThan` (R102). -/
def execLessThan (m1 m2 m3 : Mode) (s : State) : Host.Outcome State Fault Refusal :=
  runInstr (storeResult (fun x y s => .ok (lessThanCell x y) s) m1 m2 m3) s

/-- `EqualTo` (R103). -/
def execEqualTo (m1 m2 m3 : Mode) (s : State) : Host.Outcome State Fault Refusal :=
  runInstr (storeResult (fun x y s => .ok (equalCell x y) s) m1 m2 m3) s

end Sys2Proof.Machine
end

