-- ==== Sys2Proof/Machine/Control.lean ====
section
/-! DEFINITION. End (spec/41_end.md) and AdjustRelativeBase (spec/46_relbase.md). -/

namespace Sys2Proof.Machine

/-- `End` (R90): the status becomes Halted; `pc` stays, no operand cell is read. -/
def execEnd (s : State) : Host.Outcome State Fault Refusal :=
  runInstr (fun s => .ok () (s.setStatus .halted)) s

/-- `AdjustRelativeBase` (R104): the operand is resolved with the old `rb`. When the new `pc` traps, `rb` keeps its value
(spec/60_exceptions.md R139). -/
def adjustBody (m1 : Mode) (s : State) : Result Unit :=
  (source 1 m1 s).bind fun x s =>
  (add64 s.rb x s).bind fun r s =>
  (advance 2 (s.setRb r)).undoTo s

/-- `AdjustRelativeBase` (R104). -/
def execAdjustRelativeBase (m1 : Mode) (s : State) : Host.Outcome State Fault Refusal := runInstr (adjustBody m1) s

end Sys2Proof.Machine
end

