-- ==== Sys2Proof/Machine/Jumps.lean ====
section
/-! DEFINITION. JumpIfNotZero and JumpIfZero (spec/44_jumps.md). -/

namespace Sys2Proof.Machine

/-- `JumpIfNotZero` (R100). -/
def execJumpIfNotZero (m1 m2 : Mode) (s : State) : Host.Outcome State Fault Refusal :=
  runInstr (jumpWhen isNonZero m1 m2) s

/-- `JumpIfZero` (R101). -/
def execJumpIfZero (m1 m2 : Mode) (s : State) : Host.Outcome State Fault Refusal :=
  runInstr (jumpWhen isZero m1 m2) s

end Sys2Proof.Machine
end

