-- ==== Sys2Proof/Machine/PortIO.lean ====
section
/-! DEFINITION. Input and Output (spec/43_io.md R93, R94). -/

namespace Sys2Proof.Machine

/-- `Input` (R93): the port is read before the target is resolved. -/
def inputBody (m1 : Mode) (s : State) : Result Unit :=
  (inRead s).bind fun x s =>
  (destination 1 m1 s).bind fun t s =>
  store t x 2 s

/-- `Output` (R94). When the new `pc` traps, nothing has been sent (spec/60_exceptions.md R139). -/
def outputBody (m1 : Mode) (s : State) : Result Unit :=
  (source 1 m1 s).bind fun x s =>
  (outWrite x s).bind fun _ t =>
  (advance 2 t).undoTo s

/-- `Input` (R93). -/
def execInput (m1 : Mode) (s : State) : Host.Outcome State Fault Refusal := runInstr (inputBody m1) s

/-- `Output` (R94). -/
def execOutput (m1 : Mode) (s : State) : Host.Outcome State Fault Refusal := runInstr (outputBody m1) s

end Sys2Proof.Machine
end

