-- ==== Sys2Proof/Machine/Dispatch.lean ====
section
/-! DEFINITION. One arm per instruction (spec/40_step_engine.md R70, "execute op"). -/

namespace Sys2Proof.Machine

/-- The whole transition of one instruction at `pc`. -/
def exec (i : Instr) (s : State) : Host.Outcome State Fault Refusal :=
  match i with
  | .endOp _ _ _ => Sys2Proof.Machine.execEnd s
  | .add m1 m2 m3 => Sys2Proof.Machine.execAdd m1 m2 m3 s
  | .mul m1 m2 m3 => Sys2Proof.Machine.execMul m1 m2 m3 s
  | .input m1 _ _ => Sys2Proof.Machine.execInput m1 s
  | .output m1 _ _ => Sys2Proof.Machine.execOutput m1 s
  | .jumpIfNotZero m1 m2 _ => Sys2Proof.Machine.execJumpIfNotZero m1 m2 s
  | .jumpIfZero m1 m2 _ => Sys2Proof.Machine.execJumpIfZero m1 m2 s
  | .lessThan m1 m2 m3 => Sys2Proof.Machine.execLessThan m1 m2 m3 s
  | .equalTo m1 m2 m3 => Sys2Proof.Machine.execEqualTo m1 m2 m3 s
  | .adjustRelativeBase m1 _ _ => Sys2Proof.Machine.execAdjustRelativeBase m1 s

end Sys2Proof.Machine
end

