-- ==== Sys2Proof/Machine/Step.lean ====
section
/-! DEFINITION. One step (spec/40_step_engine.md R70, R79), and the placing of an instruction where the next step fetches
it. -/

namespace Sys2Proof.Machine

/-- One step. It is admitted when the status is Ready (a STEP command) or Running (inside a RUN); a Halted machine
refuses it, a Faulted machine has stopped, and before the first LOAD there is no machine (spec/47_host_commands.md R110,
R114, R117; log entry 1). While a step waits on a port that is not ready nothing runs (spec/43_io.md R97). -/
def step (s : State) : Host.Outcome State Fault Refusal :=
  match s.status with
  | .unloaded => .refused .notLoaded
  | .halted => .refused .halted
  | .faulted => .fault (.stopped s.fault)
  | .ready | .running =>
    if portAnswers s then
      match fetchDecode s with
      | .ok i => exec i s
      | .error s' => .next s'
    else .next (pollAgain s)

/-- The instruction of an opcode-table word stored at `pc` (its four cells, absent bits zero), the status one in which a
step is admitted, and no step waiting on a port. It stands for the host's loading of a program (log entries 2, 10). -/
def State.withFetchWord (s : State) (nbits w : Nat) : State :=
  ((storeCells s.pc [tableCell nbits w 0, tableCell nbits w 1, tableCell nbits w 2, tableCell nbits w 3] s).setStatus
    (admitted s.status)).setWaiting none

end Sys2Proof.Machine
end

