-- ==== Sys2Proof/Machine/Commands.lean ====
section
/-! DEFINITION. The host commands and their replies (spec/47_host_commands.md R110 to R120), and the run loop
(spec/40_step_engine.md R80). -/

namespace Sys2Proof.Machine

/-- The argument of RESET (R111). -/
inductive ResetScope where
  | memOnly
  | full
deriving DecidableEq, Repr

/-- What the host can do to the block; anything not listed it cannot do. -/
inductive Command where
  | load (img : List Word)
  | reset (scope : ResetScope)
  | setPc (a : Word)
  | run
  | step
  | peek (a : Word)
  | poke (a v : Word)
  | traceRead
  | dump
  | wire (i : InPort) (o : OutPort)
deriving DecidableEq, Repr

/-- What the host gets back. -/
inductive Reply where
  /-- The command was performed and returns nothing. -/
  | done
  /-- The command was not admitted; nothing changed. -/
  | refused
  /-- A STEP waits on a port (R97). -/
  | pending
  /-- A STEP ended: the status, `pc` (the next address) and fault record it left (R114). -/
  | stepped (status : Status) (pc : Word) (fault : Option FaultRecord)
  /-- A RUN has not returned yet (R113). -/
  | running
  /-- A RUN returned: the status it ended in and, on Fault, the record (R80, R113). -/
  | ended (status : Status) (fault : Option FaultRecord)
  /-- PEEK's Word (R118). -/
  | word (x : Word)
  /-- POKE's previous value, none for a new address (R119). -/
  | previous (old : Option Word)
  /-- PEEK or POKE at an address that cannot be accessed (R118, R119); the status is unchanged. -/
  | accessError (kind : FaultKind) (bad : Option Word)
  /-- TRACE_READ's entries (R116). -/
  | log (entries : List (Word × Word))
  /-- DUMP's cells (R120). -/
  | cells (ws : List Word)
deriving DecidableEq, Repr

/-- `mem` as a copy of the image, `mem_len` its length (R111): what every RESET restores. -/
def restoreImage (s : State) : State := (s.setMem (Memory.ofImage 0 s.image)).setMemLen s.image.length

/-- RESET(MemOnly) (R111): memory from the image, Ready, no fault; `rb`, `trace` and `pc` keep their values (R24). Nothing of
an earlier step is left (spec/70_reset_and_hazards.md R160). -/
def resetMemOnly (s : State) : State := (((restoreImage s).setStatus .ready).setFault none).setWaiting none

/-- RESET(Full) (R111): all that LOAD of the image does. -/
def resetFull (s : State) : State :=
  (((resetMemOnly s).setRb 0).setTrace []).setPc s.config.startAddress

/-- LOAD (R110); the ports are not touched (R23). It constructs a new block, so no step of an earlier one waits
(spec/70_reset_and_hazards.md R160; log entry 8). -/
def loadImage (img : List Word) (s : State) : State := resetFull { s with image := img }

/-- DUMP: the cells `mem[0 .. mem_len - 1]` in order (R120). -/
def dumpCells (s : State) : List Word := (List.range s.memLen).map s.mem.read

/-- The environment's change of the two ports, or the host's wiring of them (R115, R97). -/
def State.setPorts (s : State) (i : InPort) (o : OutPort) : State := (s.setInPort i).setOutPort o

/-- A STEP is pending (R97, R111): a step waits on a port, and not inside a RUN. -/
def State.pendingStep (s : State) : Bool := s.status == .ready && s.waiting.isSome

/-- The block is idle (spec/60_exceptions.md R150): not inside a RUN and no STEP pending. -/
def idle (s : State) : Bool := s.status != .running && !s.pendingStep

/-- A LOAD has constructed the block (R110). -/
def isLoaded (s : State) : Bool := s.status != .unloaded

/-- The host may access the block's memory and trace: not inside a RUN (R116, R118, R119), and there is a block. -/
def openToHost (s : State) : Bool := s.status != .running && isLoaded s

/-- PEEK (R118): `MemRead` with its growth, or an error to the host that changes nothing. -/
def peekCommand (a : Word) (s : State) : State × Reply :=
  match memRead a s with
  | .ok x s' => (s', .word x)
  | .raise c _ => (s, .accessError c.kind c.bad)
  | .blocked _ _ _ => (s, .refused)

/-- POKE (R119): `MemWrite` and its previous value, or an error to the host that changes nothing. -/
def pokeCommand (a v : Word) (s : State) : State × Reply :=
  match memWrite a v s with
  | .ok old s' => (s', .previous old)
  | .raise c _ => (s, .accessError c.kind c.bad)
  | .blocked _ _ _ => (s, .refused)

/-- What a RUN reports in state `t` (R113): it returns when the run has ended, with the record on Fault. -/
def runReply (t : State) : Reply :=
  match t.status with
  | .halted => .ended .halted none
  | .faulted => .ended .faulted t.fault
  | .ready | .running | .unloaded => .running

/-- What a STEP reports in state `t` (R114, R97). -/
def stepReply (t : State) : Reply := if t.pendingStep then .pending else .stepped t.status t.pc t.fault

/-- One step of the machine, with what the command it belongs to reports after it: the RUN when Running, else the STEP. -/
def stepAndReport (s : State) : State × Reply :=
  match step s with
  | .next t => (t, if s.status = .running then runReply t else stepReply t)
  | .fault _ => (s, .refused)
  | .refused _ => (s, .refused)

/-- The machine goes on with the command in progress, a RUN or a STEP that waits: this is how a STEP that had to wait comes
to its report (R97, R114), and a RUN to its return (R113). With no command in progress nothing happens. -/
def proceed (s : State) : State × Reply :=
  if idle s then (s, .refused) else stepAndReport s

/-- One host command: the state after it and the reply. Admission is that of each command's rule: a pending STEP keeps
RESET out (R111) and, by the model's choice, a change of the wiring; LOAD, SETPC, RUN and STEP are admitted by the status
alone (R112 to R114, R117), and of these only LOAD, which constructs a new block, ends the wait (R97; log entry 8). -/
def command (c : Command) (s : State) : State × Reply :=
  match c with
  | .load img => if s.status != .running then (loadImage img s, .done) else (s, .refused)
  | .reset .memOnly => if idle s && isLoaded s then (resetMemOnly s, .done) else (s, .refused)
  | .reset .full => if idle s && isLoaded s then (resetFull s, .done) else (s, .refused)
  | .setPc a =>
    if s.status == .ready || s.status == .halted then ((s.setPc a).setStatus .ready, .done) else (s, .refused)
  | .run => if s.status == .ready then (s.setStatus .running, .running) else (s, .refused)
  | .step => if s.status == .ready then stepAndReport s else (s, .refused)
  | .peek a => if openToHost s then peekCommand a s else (s, .refused)
  | .poke a v => if openToHost s then pokeCommand a v s else (s, .refused)
  | .traceRead => if openToHost s then (s, .log s.trace) else (s, .refused)
  | .dump => if openToHost s then (s, .cells (dumpCells s)) else (s, .refused)
  | .wire i o => if idle s && isLoaded s then (s.setPorts i o, .done) else (s, .refused)

/-- The run loop as a thin loop over `step` (R80), for at most `n` steps: it stops where no step is admitted. -/
def runFor : Nat → State → State
  | 0, s => s
  | n + 1, s =>
    match step s with
    | .next t => runFor n t
    | .fault _ => s
    | .refused _ => s

/-- RUN, followed for at most `n` steps, and what it has reported by then (R113). -/
def runCommand (n : Nat) (s : State) : State × Reply :=
  if s.status == .ready then (runFor n (s.setStatus .running), runReply (runFor n (s.setStatus .running)))
  else (s, .refused)

end Sys2Proof.Machine
end

