-- ==== Sys2Proof/Machine/Pipeline.lean ====
section
/-! DEFINITION. Several instances joined by channels (spec/60_exceptions.md R148, spec/20_memory.md R42): instance `k`'s
output port feeds channel `k`, which feeds instance `k + 1`'s input port. Which instance steps next is the caller's
choice (log entry 20). -/

namespace Sys2Proof.Machine

/-- A one-directional integer channel, first in first out. -/
structure Channel where
  /-- Sent and not yet received, oldest first. -/
  queue : List Word
  /-- Received so far, oldest first. -/
  received : List Word
  /-- CHAN_CAP (R5): `none` is unbounded, `some 0` a rendezvous. -/
  cap : Option Nat
  closed : Bool
deriving DecidableEq, Repr

/-- Instances and the channels between them. -/
structure Pipeline where
  stages : List State
  channels : List Channel
deriving DecidableEq, Repr

/-- The input port of a channel's reader: the oldest Word, or closed, or not ready (spec/43_io.md R98). That a closed channel
still hands over what it holds, and answers ChannelClosed only then, is log entry 20. -/
def Channel.asInPort (c : Channel) : InPort :=
  match c.queue with
  | x :: _ => ⟨[.value x], .always .notReady, 0⟩
  | [] => ⟨[], .always (if c.closed then .error .channelClosed else .notReady), 0⟩

/-- The instance would run an `Input` next. -/
def atInput (s : State) : Bool :=
  (s.status == .ready || s.status == .running) &&
    match fetchDecode s with
    | .ok (.input _ _ _) => true
    | .ok _ => false
    | .error _ => false

/-- The channel takes one more Word: there is room, or (capacity 0) it is empty and its reader is at an `Input`. -/
def Channel.accepts (c : Channel) (readerAtInput : Bool) : Bool :=
  match c.cap with
  | none => true
  | some 0 => c.queue.isEmpty && readerAtInput
  | some (n + 1) => decide (c.queue.length < n + 1)

/-- The output port of a channel's writer. -/
def Channel.asOutPort (c : Channel) (readerAtInput : Bool) : OutPort :=
  ⟨[], if c.closed then .error .channelClosed else if c.accepts readerAtInput then .accepted else .notReady⟩

/-- The channel after its reader's step to `t`: an answer taken from the port was the oldest Word. -/
def Channel.afterReader (c : Channel) (t : State) : Channel :=
  match c.queue with
  | x :: rest => if t.inPort.script.isEmpty then { c with queue := rest, received := c.received ++ [x] } else c
  | [] => c

/-- The channel after its writer's step from `s` to `t`: the Words the step sent join the queue. -/
def Channel.afterWriter (c : Channel) (s t : State) : Channel :=
  { c with queue := c.queue ++ t.output.drop s.output.length }

/-- The reader of channel `k`, instance `k + 1`, would run an `Input` next. -/
def Pipeline.readerAtInput (p : Pipeline) (k : Nat) : Bool :=
  match p.stages[k + 1]? with
  | some r => atInput r
  | none => false

/-- The input port of instance `k` in state `s`: what its channel offers; the first instance's stays as wired. -/
def Pipeline.inPortOf (p : Pipeline) (k : Nat) (s : State) : InPort :=
  match k with
  | 0 => s.inPort
  | j + 1 =>
    match p.channels[j]? with
    | some c => c.asInPort
    | none => s.inPort

/-- The output port of instance `k` in state `s`: what its channel takes; the last instance's stays as wired. -/
def Pipeline.outPortOf (p : Pipeline) (k : Nat) (s : State) : OutPort :=
  match p.channels[k]? with
  | some c => c.asOutPort (p.readerAtInput k)
  | none => s.outPort

/-- Instance `k` with its ports set to what its channels offer. -/
def Pipeline.wired (p : Pipeline) (k : Nat) (s : State) : State := s.setPorts (p.inPortOf k s) (p.outPortOf k s)

/-- The channels after instance `k`, as a reader, has stepped to `t`. -/
def Pipeline.channelsRead (p : Pipeline) (k : Nat) (t : State) : List Channel :=
  match k with
  | 0 => p.channels
  | j + 1 => p.channels.modify j (·.afterReader t)

/-- One step of instance `k`, its channels updated; an instance with no step leaves the pipeline as it is. -/
def Pipeline.stepAt (p : Pipeline) (k : Nat) : Pipeline :=
  match p.stages[k]? with
  | none => p
  | some s =>
    match step (p.wired k s) with
    | .fault _ => p
    | .refused _ => p
    | .next t =>
      { stages := p.stages.set k t
        channels := (p.channelsRead k t).modify k (·.afterWriter s t) }

/-- The environment closes channel `k`. -/
def Pipeline.close (p : Pipeline) (k : Nat) : Pipeline :=
  { p with channels := p.channels.modify k fun c => { c with closed := true } }

/-- A schedule: which instance steps, one after another. -/
def Pipeline.runSchedule : List Nat → Pipeline → Pipeline
  | [], p => p
  | k :: ks, p => Pipeline.runSchedule ks (p.stepAt k)

end Sys2Proof.Machine
end

