-- ==== Sys2Proof/Safety.lean ====
section
/-! DEFINITION. What the statements speak of: when an access, a sum or an operand is good, the values and addresses the
spec gives an operand, the state an instruction completes with, the invariant of reachable states, and what a program
cannot see. -/

namespace Sys2Proof.Machine

/-! ### When an operand is good, and what it is (spec/40_step_engine.md R74 to R76) -/

/-- The address can be accessed: not negative and below MEM_CAP (spec/20_memory.md R32, R33). -/
def AccessOk (s : State) (a : Word) : Prop := 0 ≤ a.toInt ∧ belowCap s.config a.toNat = true

/-- The sum raises no ArithOverflow (spec/00_scope.md R7). -/
def SumOk (s : State) (x y : Word) : Prop := s.config.ovfTraps = true → fitsWord (x.toInt + y.toInt) = true

/-- The product raises no ArithOverflow (R7). -/
def ProductOk (s : State) (x y : Word) : Prop := s.config.ovfTraps = true → fitsWord (x.toInt * y.toInt) = true

/-- The address `a + k` of operand cell `k` of the instruction at `pc`. -/
def operandCell (s : State) (k : Nat) : Word := s.pc + BitVec.ofNat 64 k

/-- The raw operand `k`. -/
def rawOperand (s : State) (k : Nat) : Word := s.mem.read (operandCell s k).toNat

/-- Operand cell `k` can be fetched. -/
def FetchOk (s : State) (k : Nat) : Prop := SumOk s s.pc (BitVec.ofNat 64 k) ∧ AccessOk s (operandCell s k)

/-- The address an operand in mode `m` names, none in Value mode (spec/20_memory.md R36). -/
def operandAddress (s : State) (k : Nat) (m : Mode) : Option Word :=
  match m with
  | .pointer => some (rawOperand s k)
  | .value => none
  | .relative => some (rawOperand s k + s.rb)

/-- Source operand `k` resolves without a fault. -/
def SourceOk (s : State) (k : Nat) (m : Mode) : Prop :=
  FetchOk s k ∧
    match m with
    | .pointer => AccessOk s (rawOperand s k)
    | .value => True
    | .relative => SumOk s (rawOperand s k) s.rb ∧ AccessOk s (rawOperand s k + s.rb)

/-- The value of source operand `k`. -/
def sourceValue (s : State) (k : Nat) (m : Mode) : Word :=
  match m with
  | .pointer => s.mem.read (rawOperand s k).toNat
  | .value => rawOperand s k
  | .relative => s.mem.read (rawOperand s k + s.rb).toNat

/-- The cells source operand `k` reads, in order. -/
def sourceCells (s : State) (k : Nat) (m : Mode) : List Word := operandCell s k :: (operandAddress s k m).toList

/-- Target operand `k` resolves to the address `a` (R76); whether `a` can be written is not yet asked. -/
def TargetResolves (s : State) (k : Nat) (m : Mode) (a : Word) : Prop :=
  FetchOk s k ∧ operandAddress s k m = some a ∧ (m = .relative → SumOk s (rawOperand s k) s.rb)

/-- Target operand `k` resolves to the address `a`, and a write there is good. -/
def TargetOk (s : State) (k : Nat) (m : Mode) (a : Word) : Prop := TargetResolves s k m a ∧ AccessOk s a

/-- An access to `a` raises a fault of kind `k` (spec/20_memory.md R32, R33). -/
def AccessFails (s : State) (a : Word) (k : FaultKind) : Prop :=
  (a.toInt < 0 ∧ k = .addressError) ∨ (0 ≤ a.toInt ∧ belowCap s.config a.toNat = false ∧ k = .capacityError)

/-- Resolving source operand `k` raises a fault of kind `kind` at the address `bad`, after the cells `cells` have been
read: its own cell cannot be fetched, or the address it names cannot be read. -/
def SourceFails (s : State) (k : Nat) (m : Mode) (bad : Word) (kind : FaultKind) (cells : List Word) : Prop :=
  (SumOk s s.pc (BitVec.ofNat 64 k) ∧ bad = operandCell s k ∧ cells = [] ∧ AccessFails s bad kind) ∨
    (TargetResolves s k m bad ∧ cells = [operandCell s k] ∧ AccessFails s bad kind)

/-- Operand cell `k` itself cannot be fetched, and not for an overflow: a fault of kind `kind` at its address `bad`. -/
def CellFails (s : State) (k : Nat) (bad : Word) (kind : FaultKind) : Prop :=
  SumOk s s.pc (BitVec.ofNat 64 k) ∧ bad = operandCell s k ∧ AccessFails s bad kind

/-- An address sum of operand `k`, source or target, raises ArithOverflow after the cells `cells` have been read: that of
its own cell, or in Relative mode that of the operand and `rb` (spec/60_exceptions.md R138). -/
def OperandOverflows (s : State) (k : Nat) (m : Mode) (cells : List Word) : Prop :=
  (¬ SumOk s s.pc (BitVec.ofNat 64 k) ∧ cells = []) ∨
    (FetchOk s k ∧ m = .relative ∧ ¬ SumOk s (rawOperand s k) s.rb ∧ cells = [operandCell s k])

/-- Everything Add, Mul, LessThan and EqualTo need to complete, but for the result of the operation itself: the opcode
cell and the three operands are good, the target is the address `a`, and the new `pc` can be formed. -/
def FourCellOk (s : State) (m1 m2 m3 : Mode) (a : Word) : Prop :=
  AccessOk s s.pc ∧ SourceOk s 1 m1 ∧ SourceOk s 2 m2 ∧ TargetOk s 3 m3 a ∧ SumOk s s.pc 4

/-- The cells those instructions touch after the opcode cell, up to and without the write. -/
def fourCellReads (s : State) (m1 m2 : Mode) : List Word :=
  sourceCells s 1 m1 ++ sourceCells s 2 m2 ++ [operandCell s 3]

/-! ### The state an instruction completes with -/

/-- `mem_len` after the cells `as` have been touched (R34): one more than the largest, if that is more. -/
def memLenAfter (n : Nat) (as : List Word) : Nat := as.foldl (fun n a => max n (a.toNat + 1)) n

/-- What every completed instruction does beside its own effect: its trace entry, the growth by the cells `as` it
touched after its opcode cell, the new `pc`; a step that waited has ended. -/
def completed (s : State) (as : List Word) (pc' : Word) : State :=
  { s with
    pc := pc'
    memLen := memLenAfter s.memLen (s.pc :: as)
    trace := s.trace ++ [(s.pc, s.mem.read s.pc.toNat)]
    waiting := none }

/-- `s` with the fault taken: the record written, Faulted, everything else as in `s` (spec/60_exceptions.md R140). -/
def faultedWith (s : State) (value : Option Word) (kind : FaultKind) (bad : Option Word)
    (io : Option (IoDir × IoKind)) : State :=
  { s with
    fault := some { kind := kind, addr := s.pc, value := value, bad := bad, io := io }
    status := .faulted
    waiting := none }

/-- `s` with its trace entry and with growth by its opcode cell and the cells `as`: how far an instruction that faults
after decode has come (spec/60_exceptions.md R139). -/
def started (s : State) (as : List Word) : State :=
  { s with
    memLen := memLenAfter s.memLen (s.pc :: as)
    trace := s.trace ++ [(s.pc, s.mem.read s.pc.toNat)] }

/-- Every field is the same but the two port environments and what a step waits on: what a blocked step leaves (R79). -/
def SameBlock (s t : State) : Prop :=
  t.pc = s.pc ∧ t.rb = s.rb ∧ t.mem = s.mem ∧ t.memLen = s.memLen ∧ t.image = s.image ∧ t.trace = s.trace ∧
    t.status = s.status ∧ t.fault = s.fault ∧ t.output = s.output ∧ t.config = s.config

/-! ### Safe states -/

/-- A safe state: no fault has been taken. -/
def Safe (s : State) : Prop := s.status ≠ .faulted

/-- A run from `s` has ended normally after `n` steps (spec/70_reset_and_hazards.md R169). -/
def EndsNormally (n : Nat) (s : State) : Prop := (runFor n s).status = .halted

/-- The invariant of reachable states. Memory is in canonical form and no cell at or above `mem_len` is listed, so it
reads as 0 (spec/10_state.md R13, R14); `mem_len` stays in the address space and below MEM_CAP unless the image is
longer, and an image has no more cells than there are addresses (R30); the fault record is valid exactly when Faulted and
then names `pc` (R18; spec/60_exceptions.md R140); and a step waits on a port only in a block that is Ready (a pending STEP)
or Running (spec/43_io.md R97). -/
def Inv (s : State) : Prop :=
  s.mem.wf = true ∧ (∀ c ∈ s.mem, c.1 < s.memLen) ∧ s.memLen ≤ 2 ^ 63 ∧ s.image.length ≤ 2 ^ 63 ∧
    (match s.config.memCap with
      | none => True
      | some cap => s.memLen ≤ max cap s.image.length) ∧
    (match s.fault with
      | none => s.status ≠ .faulted
      | some f => s.status = .faulted ∧ f.addr = s.pc) ∧
    (s.waiting = none ∨ s.status = .ready ∨ s.status = .running)

/-! ### Pipelines -/

/-- Channel `k` holds what instance `k` sent, in the order sent: received first, then still queued
(spec/20_memory.md R42). -/
def InOrder (p : Pipeline) : Prop :=
  ∀ (k : Nat) (c : Channel) (s : State), p.channels[k]? = some c → p.stages[k]? = some s →
    s.output = c.received ++ c.queue

/-- The reader of channel `j` is handed the channel's oldest Word, and that Word leaves the queue for the received ones
exactly when the reader takes an enabled step at an `Input`; what the reader finds when nothing is queued is closed or not ready
(spec/43_io.md R95, R98). That a closed channel hands over what it still holds is the model's choice (log entry 20). -/
def HandsOverOldest (p : Pipeline) : Prop :=
  ∀ (j : Nat) (c : Channel) (s : State), p.channels[j]? = some c → p.stages[j + 1]? = some s →
    (∀ x rest, c.queue = x :: rest →
      pollIn (p.wired (j + 1) s).inPort = (.value x, ⟨[], .always .notReady, 0⟩) ∧
      (p.stepAt (j + 1)).channels[j]? =
        some (if portAnswers (p.wired (j + 1) s) && atInput s then { c with queue := rest, received := c.received ++ [x] } else c)) ∧
    (c.queue = [] →
      (pollIn (p.wired (j + 1) s).inPort).1 = (if c.closed then .error .channelClosed else .notReady) ∧
      (p.stepAt (j + 1)).channels[j]? = some c)

/-- No channel holds more than its capacity lets it; a rendezvous hands over at most one Word. -/
def WithinCapacity (p : Pipeline) : Prop :=
  ∀ c ∈ p.channels, ∀ n, c.cap = some n → c.queue.length ≤ max n 1

/-! ### What a program cannot see -/

/-- `s` without the state no instruction reads: `mem_len`, the trace and the image (spec/10_state.md R14 to R16). -/
def hideHostOnly (s : State) : State := { s with memLen := 0, trace := [], image := [] }

/-- Apply `f` to the state of an outcome. -/
def mapNext (f : State → State) : Host.Outcome State Fault Refusal → Host.Outcome State Fault Refusal
  | .next t => .next (f t)
  | .fault r => .fault r
  | .refused r => .refused r

/-- The same state seen inside a RUN: Ready becomes Running. -/
def asRunning (s : State) : State := { s with status := if s.status = .ready then .running else s.status }

end Sys2Proof.Machine
end

