-- ==== Sys2Proof/Certificates/Slice0/Obligations.lean ====
section
/-! DEFINITION. The statements for the provers. A clause that rests on one of the spec's own decisions (92_eei_decisions.md
D<n>) or on the model's choice says so in its docstring. -/

open Sys2Proof Sys2Proof.Machine

/-! ### Encoding (spec/30_encoding.md) -/

/-- Decode and encode agree: the canonical cell of every instruction, with every mode in every position, decodes to it.
The opcode numbers 5 to 8 are the spec's decision D7. -/
def Obligations.DecodeOfEncodeIsTheInstruction : Prop := ∀ i : Instr, decode (encode i) = .ok i

/-- A cell decodes to an instruction exactly when it is not negative and its five low decimal digits are the
instruction's canonical cell: no digit of the encoding is dropped, and the digits above are ignored (R58, decision D5). -/
def Obligations.DecodesExactlyItsCells : Prop :=
  ∀ (v : Word) (i : Instr), decode v = .ok i ↔ 0 ≤ v.toInt ∧ v.toNat % 100000 = (encode i).toNat

/-- Which cells are illegal, and with which error (R59; decisions D3, D4, D6): negative or an unknown remainder gives
UnknownOpcode; a legal opcode with a digit 3 to 9 in any of the three mode positions gives UnknownMode. -/
def Obligations.IllegalCellsAndTheirErrors : Prop :=
  ∀ v : Word,
    (decode v = .error .unknownOpcode ↔
      v.toInt < 0 ∨ ¬ (v.toNat % 100 ∈ [1, 2, 3, 4, 5, 6, 7, 8, 9, 99])) ∧
    (decode v = .error .unknownMode ↔
      0 ≤ v.toInt ∧ v.toNat % 100 ∈ [1, 2, 3, 4, 5, 6, 7, 8, 9, 99] ∧
        (2 < v.toNat / 100 % 10 ∨ 2 < v.toNat / 1000 % 10 ∨ 2 < v.toNat / 10000 % 10))

/-- The worked decodings the source gives (R62). -/
def Obligations.WorkedDecodings : Prop :=
  decode 1002 = .ok (.mul .pointer .value .pointer) ∧
  decode 109 = .ok (.adjustRelativeBase .value .pointer .pointer) ∧
  decode 99 = .ok (.endOp .pointer .pointer .pointer) ∧
  decode 1099 = .ok (.endOp .pointer .value .pointer) ∧
  decode 11199 = .ok (.endOp .value .value .value)

/-- The ten opcode numbers and lengths (R53, R55): the cell `OP` alone decodes to the operation in Pointer modes, and the
operation's length is that of the table. Numbers 5 to 8 are decision D7. -/
def Obligations.OpcodeNumbersAndLengths : Prop :=
  ∀ p, p = Mode.pointer →
    (decode 99 = .ok (.endOp p p p) ∧ (Instr.endOp p p p).length = 1) ∧
    (decode 1 = .ok (.add p p p) ∧ (Instr.add p p p).length = 4) ∧
    (decode 2 = .ok (.mul p p p) ∧ (Instr.mul p p p).length = 4) ∧
    (decode 3 = .ok (.input p p p) ∧ (Instr.input p p p).length = 2) ∧
    (decode 4 = .ok (.output p p p) ∧ (Instr.output p p p).length = 2) ∧
    (decode 5 = .ok (.jumpIfNotZero p p p) ∧ (Instr.jumpIfNotZero p p p).length = 3) ∧
    (decode 6 = .ok (.jumpIfZero p p p) ∧ (Instr.jumpIfZero p p p).length = 3) ∧
    (decode 7 = .ok (.lessThan p p p) ∧ (Instr.lessThan p p p).length = 4) ∧
    (decode 8 = .ok (.equalTo p p p) ∧ (Instr.equalTo p p p).length = 4) ∧
    (decode 9 = .ok (.adjustRelativeBase p p p) ∧ (Instr.adjustRelativeBase p p p).length = 2)

/-! ### Words and memory (spec/00_scope.md R6, R7; spec/20_memory.md) -/

/-- `wrap64 z` is the unique Word congruent to `z` modulo 2^64 (R6, decision D1), and the checked sum and product give it,
or ArithOverflow exactly when OVF_TRAPS is set and the exact result is no Word (R7, decision D2). -/
def Obligations.ArithmeticWrapsOrTraps : Prop :=
  (∀ (z : Int) (w : Word), w = wrap64 z ↔ (2 ^ 64 : Int) ∣ w.toInt - z) ∧
  ∀ (x y : Word) (s : State) (op : Word → Word → State → Result Word) (z : Int),
    (op = add64 ∧ z = x.toInt + y.toInt) ∨ (op = mul64 ∧ z = x.toInt * y.toInt) →
    (s.config.ovfTraps = true ∧ (z < -2 ^ 63 ∨ 2 ^ 63 ≤ z) → op x y s = .raise ⟨.arithOverflow, none, none⟩ s) ∧
    (¬ (s.config.ovfTraps = true ∧ (z < -2 ^ 63 ∨ 2 ^ 63 ≤ z)) → op x y s = .ok (wrap64 z) s)

/-- MemRead (R32): a negative address raises AddressError, an address at or above a finite MEM_CAP raises CapacityError,
any other address gives its cell and grows `mem_len` to one past it; a cell the growth created reads as 0. -/
def Obligations.MemReadFollowsItsRule : Prop :=
  ∀ (a : Word) (s : State),
    (a.toInt < 0 → memRead a s = .raise ⟨.addressError, some a, none⟩ s) ∧
    (∀ cap, 0 ≤ a.toInt → s.config.memCap = some cap → cap ≤ a.toNat →
      memRead a s = .raise ⟨.capacityError, some a, none⟩ s) ∧
    (0 ≤ a.toInt → (∀ cap, s.config.memCap = some cap → a.toNat < cap) →
      memRead a s = .ok (s.mem.read a.toNat) { s with memLen := max s.memLen (a.toNat + 1) } ∧
        (Inv s → s.memLen ≤ a.toNat → s.mem.read a.toNat = 0))

/-- MemWrite (R33): the two faults as for a read; otherwise the cell holds the value, every other cell is as before,
`mem_len` has grown to one past it, and the answer is the previous value, or none for an address growth created. -/
def Obligations.MemWriteFollowsItsRule : Prop :=
  ∀ (a v : Word) (s : State), s.mem.wf = true →
    (a.toInt < 0 → memWrite a v s = .raise ⟨.addressError, some a, none⟩ s) ∧
    (∀ cap, 0 ≤ a.toInt → s.config.memCap = some cap → cap ≤ a.toNat →
      memWrite a v s = .raise ⟨.capacityError, some a, none⟩ s) ∧
    (0 ≤ a.toInt → (∀ cap, s.config.memCap = some cap → a.toNat < cap) →
      ∃ m, memWrite a v s = .ok (if a.toNat < s.memLen then some (s.mem.read a.toNat) else none)
          { s with mem := m, memLen := max s.memLen (a.toNat + 1) } ∧
        ∀ b, m.read b = if b = a.toNat then v else s.mem.read b)

/-- `resolve_value` (R75): Pointer reads the cell the operand names, Value is the operand, Relative reads the cell named
by the operand plus the relative base. That this sum wraps, and that it raises ArithOverflow under OVF_TRAPS, is R7 and R36
with the spec's decisions D2 and D12 (log entry 14). -/
def Obligations.ValueOfEachMode : Prop :=
  ∀ (p : Word) (s : State),
    resolveValue .pointer p s = memRead p s ∧ resolveValue .value p s = .ok p s ∧
    (SumOk s p s.rb → resolveValue .relative p s = memRead (p + s.rb) s) ∧
    (¬ SumOk s p s.rb → resolveValue .relative p s = .raise ⟨.arithOverflow, none, none⟩ s)

/-- `resolve_address` (R76): Pointer is the operand, Relative the operand plus the relative base, Value the write-mode
fault; a negative address passes, since the write tests it. That the Relative sum wraps, and that it raises ArithOverflow
under OVF_TRAPS, is R7 and R36 with the spec's decisions D2 and D12 (log entry 14). -/
def Obligations.TargetOfEachMode : Prop :=
  ∀ (p : Word) (s : State),
    resolveTarget .pointer p s = .ok p s ∧
    resolveTarget .value p s = .raise ⟨.writeModeError, none, none⟩ s ∧
    (SumOk s p s.rb → resolveTarget .relative p s = .ok (p + s.rb) s) ∧
    (¬ SumOk s p s.rb → resolveTarget .relative p s = .raise ⟨.arithOverflow, none, none⟩ s)

/-! ### What each instruction does when it completes -/

/-- `Add` (R91): on good operands it completes, in every mode: the target holds the sum modulo 2^64 (decision D2), the
trace has its entry, `mem_len` covers every cell touched, `pc` is `a + 4` (the register is decision D14), and nothing else
changes. -/
def Obligations.AddStoresTheSum : Prop :=
  ∀ (m1 m2 m3 : Mode) (a : Word) (s : State), FourCellOk s m1 m2 m3 a →
    SumOk s (sourceValue s 1 m1) (sourceValue s 2 m2) →
    exec (.add m1 m2 m3) s = .next
      { completed s (fourCellReads s m1 m2 ++ [a]) (s.pc + 4) with
        mem := s.mem.write a.toNat (sourceValue s 1 m1 + sourceValue s 2 m2) }

/-- `Mul` (R92): as `Add`, with the low 64 bits of the signed product. -/
def Obligations.MulStoresTheProduct : Prop :=
  ∀ (m1 m2 m3 : Mode) (a : Word) (s : State), FourCellOk s m1 m2 m3 a →
    ProductOk s (sourceValue s 1 m1) (sourceValue s 2 m2) →
    exec (.mul m1 m2 m3) s = .next
      { completed s (fourCellReads s m1 m2 ++ [a]) (s.pc + 4) with
        mem := s.mem.write a.toNat (sourceValue s 1 m1 * sourceValue s 2 m2) }

/-- `LessThan` (R102): on good operands it completes and the target holds exactly 1 or 0 by the signed comparison,
whatever OVF_TRAPS is. -/
def Obligations.LessThanStoresOneOrZero : Prop :=
  ∀ (m1 m2 m3 : Mode) (a : Word) (s : State), FourCellOk s m1 m2 m3 a →
    exec (.lessThan m1 m2 m3) s = .next
      { completed s (fourCellReads s m1 m2 ++ [a]) (s.pc + 4) with
        mem := s.mem.write a.toNat
          (if (sourceValue s 1 m1).toInt < (sourceValue s 2 m2).toInt then 1 else 0) }

/-- `EqualTo` (R103): on good operands it completes and the target holds exactly 1 or 0 by equality of whole Words. -/
def Obligations.EqualToStoresOneOrZero : Prop :=
  ∀ (m1 m2 m3 : Mode) (a : Word) (s : State), FourCellOk s m1 m2 m3 a →
    exec (.equalTo m1 m2 m3) s = .next
      { completed s (fourCellReads s m1 m2 ++ [a]) (s.pc + 4) with
        mem := s.mem.write a.toNat (if sourceValue s 1 m1 = sourceValue s 2 m2 then 1 else 0) }

/-- `Input` (R93): when the port delivers `x`, the good target holds `x`, the port has given up that value, and `pc` is
`a + 2`. The three-answer port is decision D18. -/
def Obligations.InputStoresTheDeliveredWord : Prop :=
  ∀ (m1 m2 m3 : Mode) (a x : Word) (p : InPort) (s : State), AccessOk s s.pc →
    pollIn s.inPort = (.value x, p) → TargetOk s 1 m1 a → SumOk s s.pc 2 →
    exec (.input m1 m2 m3) s = .next
      { completed s [operandCell s 1, a] (s.pc + 2) with mem := s.mem.write a.toNat x, inPort := p }

/-- `Output` (R94): on a good source, when the port accepts, the observable output gains exactly that value, `pc` is
`a + 2`, and memory is not written. -/
def Obligations.OutputSendsItsOperand : Prop :=
  ∀ (m1 m2 m3 : Mode) (p : OutPort) (s : State), AccessOk s s.pc → SourceOk s 1 m1 →
    pollOut s.outPort = (.accepted, p) → SumOk s s.pc 2 →
    exec (.output m1 m2 m3) s = .next
      { completed s (sourceCells s 1 m1) (s.pc + 2) with
        output := s.output ++ [sourceValue s 1 m1], outPort := p }

/-- `JumpIfNotZero` (R100): a nonzero condition sets `pc` to the second operand's resolved value, any Word; a zero one
falls through by 3 without touching operand 2 (decision D10). Nothing is written. -/
def Obligations.JumpIfNotZeroJumpsOrFallsThrough : Prop :=
  ∀ (m1 m2 m3 : Mode) (s : State), AccessOk s s.pc → SourceOk s 1 m1 →
    (sourceValue s 1 m1 ≠ 0 → SourceOk s 2 m2 → exec (.jumpIfNotZero m1 m2 m3) s =
      .next (completed s (sourceCells s 1 m1 ++ sourceCells s 2 m2) (sourceValue s 2 m2))) ∧
    (sourceValue s 1 m1 = 0 → SumOk s s.pc 3 → exec (.jumpIfNotZero m1 m2 m3) s =
      .next (completed s (sourceCells s 1 m1) (s.pc + 3)))

/-- `JumpIfZero` (R101): as `JumpIfNotZero` with the condition inverted. -/
def Obligations.JumpIfZeroJumpsOrFallsThrough : Prop :=
  ∀ (m1 m2 m3 : Mode) (s : State), AccessOk s s.pc → SourceOk s 1 m1 →
    (sourceValue s 1 m1 = 0 → SourceOk s 2 m2 → exec (.jumpIfZero m1 m2 m3) s =
      .next (completed s (sourceCells s 1 m1 ++ sourceCells s 2 m2) (sourceValue s 2 m2))) ∧
    (sourceValue s 1 m1 ≠ 0 → SumOk s s.pc 3 → exec (.jumpIfZero m1 m2 m3) s =
      .next (completed s (sourceCells s 1 m1) (s.pc + 3)))

/-- `AdjustRelativeBase` (R104): on a good source, `rb` becomes `rb` plus the value (resolved with the old `rb`) modulo
2^64, `pc` is `a + 2`, and memory is not written. -/
def Obligations.AdjustRelativeBaseAddsItsOperand : Prop :=
  ∀ (m1 m2 m3 : Mode) (s : State), AccessOk s s.pc → SourceOk s 1 m1 →
    SumOk s s.rb (sourceValue s 1 m1) → SumOk s s.pc 2 →
    exec (.adjustRelativeBase m1 m2 m3) s = .next
      { completed s (sourceCells s 1 m1) (s.pc + 2) with rb := s.rb + sourceValue s 1 m1 }

/-- `End` (R90): the status becomes Halted, `pc` stays, no operand cell is read. The status register is decision D15. -/
def Obligations.EndHalts : Prop :=
  ∀ (m1 m2 m3 : Mode) (s : State), AccessOk s s.pc →
    exec (.endOp m1 m2 m3) s = .next { completed s [] s.pc with status := .halted }

/-! ### A step -/

/-- A step runs the decoded instruction (R70): with status Ready or Running and the opcode cell readable, when the cell at
`pc` decodes to `i`, the step is `exec i`; so it is too when a step has waited, once the port it waits on answers (R97). -/
def Obligations.StepRunsTheDecodedInstruction : Prop :=
  ∀ (s : State) (i : Instr), s.status = .ready ∨ s.status = .running →
    s.waiting = none ∨ (s.waiting = some .input ∧ (pollIn s.inPort).1 ≠ .notReady) ∨
      (s.waiting = some .output ∧ (pollOut s.outPort).1 ≠ .notReady) →
    AccessOk s s.pc → decode (s.mem.read s.pc.toNat) = .ok i → step s = exec i s

/-- When no step is admitted (R110, R114, R117, decision D29): before the first LOAD and when Halted it is refused, and a
Faulted machine has stopped with its record; that the answers differ is the model's choice (log entry 1). -/
def Obligations.StoppedMachineTakesNoStep : Prop :=
  ∀ s : State, (s.status = .halted → step s = .refused .halted) ∧
    (s.status = .faulted → step s = .fault (.stopped s.fault)) ∧ (s.status = .unloaded → step s = .refused .notLoaded)

/-- A step always answers a next state when it is admitted, and the status it leaves is the one it found, Halted, or
Faulted (R79, R117). That a fault entry is a next state is log entry 1, and that a step whose port is not ready is one, in
which nothing of the block has changed, is log entry 7: R79 says of it that "the step has not happened yet". -/
def Obligations.AdmittedStepAnswersAndItsStatus : Prop :=
  ∀ s : State, s.status = .ready ∨ s.status = .running →
    ∃ t, step s = .next t ∧ (t.status = s.status ∨ t.status = .halted ∨ t.status = .faulted)

/-- A step inside a RUN is the step STEP takes (R80): "no behaviour exists in RUN that STEP lacks". The two states differ
in the status Running against Ready alone. -/
def Obligations.RunStepsAsStepDoes : Prop :=
  ∀ s : State, s.status = .ready → step (asRunning s) = mapNext asRunning (step s)

/-! ### Faults (spec/60_exceptions.md) -/

/-- Fetch faults (R71): a `pc` that cannot be read faults with no opcode cell recorded, the offending address `pc`, and
nothing else changed (record: decision D16). The step is enabled: none waits on a port that is not ready (R97). -/
def Obligations.FetchFaults : Prop :=
  ∀ (s : State) (k : FaultKind), s.status = .ready ∨ s.status = .running → portAnswers s = true → AccessFails s s.pc k →
    step s = .next (faultedWith s none k (some s.pc) none)

/-- Decode faults (R72): an illegal cell at `pc` faults with its address and value, before the trace entry and before any
operand; only `mem_len` may have grown, by the fetch. The step is enabled: none waits on a port that is not ready (R97). -/
def Obligations.DecodeFaults : Prop :=
  ∀ (s : State) (e : DecodeError), s.status = .ready ∨ s.status = .running → portAnswers s = true → AccessOk s s.pc →
    decode (s.mem.read s.pc.toNat) = .error e →
    step s = .next (faultedWith { s with memLen := max s.memLen (s.pc.toNat + 1) } (some (s.mem.read s.pc.toNat))
      (match e with
        | .unknownOpcode => .unknownOpcode
        | .unknownMode => .unknownMode) none none)

/-- Value mode on a target (R60, R134): Add, Mul, LessThan and EqualTo fault with WriteModeError after both sources have
been read; Input does so after the port has given its value, which is lost (decision D11). No cell changes. -/
def Obligations.ValueModeTargetFaults : Prop :=
  ∀ (m1 m2 : Mode) (s : State), AccessOk s s.pc →
    (∀ i, i = .add m1 m2 .value ∨ i = .mul m1 m2 .value ∨ i = .lessThan m1 m2 .value ∨ i = .equalTo m1 m2 .value →
      SourceOk s 1 m1 → SourceOk s 2 m2 → FetchOk s 3 →
      exec i s = .next (faultedWith (started s (fourCellReads s m1 m2)) (some (s.mem.read s.pc.toNat))
        .writeModeError none none)) ∧
    (∀ (x : Word) (p : InPort), pollIn s.inPort = (.value x, p) → FetchOk s 1 →
      exec (.input .value m1 m2) s = .next (faultedWith { started s [operandCell s 1] with inPort := p }
        (some (s.mem.read s.pc.toNat)) .writeModeError none none))

/-- A first source operand that cannot be read (R130, R132): every instruction whose operand 1 is a source faults at that
address, with its trace entry and the growth by the cells read before, and nothing else changed. -/
def Obligations.FirstSourceFaults : Prop :=
  ∀ (m1 m2 m3 : Mode) (s : State) (bad : Word) (k : FaultKind) (cells : List Word) (i : Instr),
    i = .add m1 m2 m3 ∨ i = .mul m1 m2 m3 ∨ i = .output m1 m2 m3 ∨ i = .jumpIfNotZero m1 m2 m3 ∨
      i = .jumpIfZero m1 m2 m3 ∨ i = .lessThan m1 m2 m3 ∨ i = .equalTo m1 m2 m3 ∨
      i = .adjustRelativeBase m1 m2 m3 →
    AccessOk s s.pc → SourceFails s 1 m1 bad k cells →
    exec i s = .next (faultedWith (started s cells) (some (s.mem.read s.pc.toNat)) k (some bad) none)

/-- A second source operand that cannot be read: Add, Mul, LessThan and EqualTo always, a jump only when it is taken
(decisions D9, D10). -/
def Obligations.SecondSourceFaults : Prop :=
  ∀ (m1 m2 m3 : Mode) (s : State) (bad : Word) (k : FaultKind) (cells : List Word) (i : Instr),
    i = .add m1 m2 m3 ∨ i = .mul m1 m2 m3 ∨ i = .lessThan m1 m2 m3 ∨ i = .equalTo m1 m2 m3 ∨
      (i = .jumpIfNotZero m1 m2 m3 ∧ sourceValue s 1 m1 ≠ 0) ∨
      (i = .jumpIfZero m1 m2 m3 ∧ sourceValue s 1 m1 = 0) →
    AccessOk s s.pc → SourceOk s 1 m1 → SourceFails s 2 m2 bad k cells →
    exec i s = .next (faultedWith (started s (sourceCells s 1 m1 ++ cells)) (some (s.mem.read s.pc.toNat)) k
      (some bad) none)

/-- A target address that cannot be written (R35, R132): the fault comes at the write, after every read; no cell changes.
Input has already taken its value from the port. -/
def Obligations.TargetAddressFaults : Prop :=
  ∀ (m1 m2 m3 : Mode) (s : State) (a : Word) (k : FaultKind), AccessOk s s.pc → AccessFails s a k →
    (∀ i, (i = .add m1 m2 m3 ∧ SumOk s (sourceValue s 1 m1) (sourceValue s 2 m2)) ∨
        (i = .mul m1 m2 m3 ∧ ProductOk s (sourceValue s 1 m1) (sourceValue s 2 m2)) ∨
        i = .lessThan m1 m2 m3 ∨ i = .equalTo m1 m2 m3 →
      SourceOk s 1 m1 → SourceOk s 2 m2 → TargetResolves s 3 m3 a →
      exec i s = .next (faultedWith (started s (fourCellReads s m1 m2)) (some (s.mem.read s.pc.toNat)) k
        (some a) none)) ∧
    (∀ (x : Word) (p : InPort), pollIn s.inPort = (.value x, p) → TargetResolves s 1 m1 a →
      exec (.input m1 m2 m3) s = .next (faultedWith { started s [operandCell s 1] with inPort := p }
        (some (s.mem.read s.pc.toNat)) k (some a) none))

/-- ArithOverflow (R137, decision D2): with OVF_TRAPS set, a sum, product or new relative base that is no Word faults
after the operands have been resolved and before anything is written. -/
def Obligations.OverflowTrapsBeforeTheWrite : Prop :=
  ∀ (m1 m2 m3 : Mode) (s : State), AccessOk s s.pc → SourceOk s 1 m1 →
    (∀ i a, (i = .add m1 m2 m3 ∧ ¬ SumOk s (sourceValue s 1 m1) (sourceValue s 2 m2)) ∨
        (i = .mul m1 m2 m3 ∧ ¬ ProductOk s (sourceValue s 1 m1) (sourceValue s 2 m2)) →
      SourceOk s 2 m2 → TargetResolves s 3 m3 a →
      exec i s = .next (faultedWith (started s (fourCellReads s m1 m2)) (some (s.mem.read s.pc.toNat))
        .arithOverflow none none)) ∧
    (¬ SumOk s s.rb (sourceValue s 1 m1) →
      exec (.adjustRelativeBase m1 m2 m3) s = .next (faultedWith (started s (sourceCells s 1 m1))
        (some (s.mem.read s.pc.toNat)) .arithOverflow none none))

/-- I/O faults (R135): an error answer of the input port faults before the target is looked at; one of the output port
faults after the source has been read. The record says which direction and which error; nothing is written or sent. -/
def Obligations.PortErrorsFault : Prop :=
  ∀ (m1 m2 m3 : Mode) (s : State), AccessOk s s.pc →
    (∀ (k : IoKind) (p : InPort), pollIn s.inPort = (.error k, p) →
      exec (.input m1 m2 m3) s = .next (faultedWith { started s [] with inPort := p }
        (some (s.mem.read s.pc.toNat)) .ioError none (some (.input, k)))) ∧
    (∀ (k : OutError) (p : OutPort), SourceOk s 1 m1 → pollOut s.outPort = (.error k, p) →
      exec (.output m1 m2 m3) s = .next (faultedWith { started s (sourceCells s 1 m1) with outPort := p }
        (some (s.mem.read s.pc.toNat)) .ioError none
        (some (.output, match k with
          | .noCapability => .noCapability
          | .channelClosed => .channelClosed))))

/-- Blocking (R79, R97, decision D18): a port that is not ready leaves every piece of the block's state unchanged, the
trace and `mem_len` included; the step waits on that port, in a RUN or as a pending STEP (log entries 7, 8). -/
def Obligations.NotReadyPortChangesNothing : Prop :=
  ∀ (m1 m2 m3 : Mode) (s : State), AccessOk s s.pc →
    (∀ p : InPort, pollIn s.inPort = (.notReady, p) →
      ∃ t, exec (.input m1 m2 m3) s = .next t ∧ SameBlock s t ∧ t.inPort = p ∧ t.outPort = s.outPort ∧
        t.waiting = some .input) ∧
    (∀ p : OutPort, SourceOk s 1 m1 → pollOut s.outPort = (.notReady, p) →
      ∃ t, exec (.output m1 m2 m3) s = .next t ∧ SameBlock s t ∧ t.inPort = s.inPort ∧ t.outPort = p ∧
        t.waiting = some .output)

/-- Faults are precise (R139, decision D26): when a step takes a fault, of any kind, `pc`, `rb`, memory, the image and the
output are as they were; the trace is as it was, with no opcode cell or an illegal one recorded, or has the one entry of
the decoded instruction; `mem_len` may have grown; the record names `pc`. That this holds of ArithOverflow at the `pc`
update too, against R46's remark that it comes after the write, is log entry 12. -/
def Obligations.FaultsArePrecise : Prop :=
  ∀ (s t : State) (f : FaultRecord), step s = .next t → t.status = .faulted → t.fault = some f →
    t.pc = s.pc ∧ t.rb = s.rb ∧ t.mem = s.mem ∧ t.image = s.image ∧ t.output = s.output ∧ t.config = s.config ∧
      s.memLen ≤ t.memLen ∧ f.addr = s.pc ∧
      ((t.trace = s.trace ∧ (f.value = none ∨
          ∃ e, f.value = some (s.mem.read s.pc.toNat) ∧ decode (s.mem.read s.pc.toNat) = .error e)) ∨
        (t.trace = s.trace ++ [(s.pc, s.mem.read s.pc.toNat)] ∧ f.value = some (s.mem.read s.pc.toNat) ∧
          ∃ i, decode (s.mem.read s.pc.toNat) = .ok i))

/-! ### Frames: what a next state keeps -/

/-- Frame of Add, Mul, LessThan and EqualTo, for whatever next state they answer: every byte of memory but the one target
cell, `rb`, the image, the output, both ports and the parameters; the status only becomes Faulted, and the record changes
only then; `mem_len` never falls. The target address is what the meaning's own `destination` answers. -/
def Obligations.FrameOfStoringInstructions : Prop :=
  ∀ (m1 m2 m3 : Mode) (s t : State) (i : Instr), s.mem.wf = true →
    i = .add m1 m2 m3 ∨ i = .mul m1 m2 m3 ∨ i = .lessThan m1 m2 m3 ∨ i = .equalTo m1 m2 m3 →
    exec i s = .next t →
    (∀ b, (∀ a u, destination 3 m3 s = .ok a u → a.toNat ≠ b) → t.mem.read b = s.mem.read b) ∧
      t.rb = s.rb ∧ t.image = s.image ∧ t.output = s.output ∧ t.inPort = s.inPort ∧ t.outPort = s.outPort ∧
      t.config = s.config ∧ ((t.status = s.status ∧ t.fault = s.fault) ∨ t.status = .faulted) ∧ s.memLen ≤ t.memLen ∧
      (t.trace = s.trace ∨ t.trace = s.trace ++ [(s.pc, s.mem.read s.pc.toNat)])

/-- Frame of Input: as above, with its own target; the input port may change and the output port does not. -/
def Obligations.FrameOfInput : Prop :=
  ∀ (m1 m2 m3 : Mode) (s t : State), s.mem.wf = true → exec (.input m1 m2 m3) s = .next t →
    (∀ b, (∀ a u, destination 1 m1 s = .ok a u → a.toNat ≠ b) → t.mem.read b = s.mem.read b) ∧
      t.rb = s.rb ∧ t.image = s.image ∧ t.output = s.output ∧ t.outPort = s.outPort ∧ t.config = s.config ∧
      (t.inPort = s.inPort ∨ t.inPort = (pollIn s.inPort).2) ∧
      ((t.status = s.status ∧ t.fault = s.fault) ∨ t.status = .faulted) ∧ s.memLen ≤ t.memLen ∧
      (t.trace = s.trace ∨ t.trace = s.trace ++ [(s.pc, s.mem.read s.pc.toNat)])

/-- Frame of the instructions that store nothing, Output, the two jumps, AdjustRelativeBase and End: all of memory, the
image, the input port and the parameters; `rb` but for AdjustRelativeBase; the output and its port but for Output; the
status but for End's Halted and a fault. -/
def Obligations.FrameOfInstructionsThatStoreNothing : Prop :=
  ∀ (m1 m2 m3 : Mode) (s t : State) (i : Instr),
    i = .output m1 m2 m3 ∨ i = .jumpIfNotZero m1 m2 m3 ∨ i = .jumpIfZero m1 m2 m3 ∨
      i = .adjustRelativeBase m1 m2 m3 ∨ i = .endOp m1 m2 m3 →
    exec i s = .next t →
    (∀ b, t.mem.read b = s.mem.read b) ∧ t.image = s.image ∧ t.inPort = s.inPort ∧ t.config = s.config ∧
      (i ≠ .adjustRelativeBase m1 m2 m3 → t.rb = s.rb) ∧
      (i ≠ .output m1 m2 m3 → t.output = s.output ∧ t.outPort = s.outPort) ∧
      ((t.status = s.status ∧ t.fault = s.fault) ∨ t.status = .faulted ∨
        (i = .endOp m1 m2 m3 ∧ t.status = .halted ∧ t.fault = s.fault)) ∧
      s.memLen ≤ t.memLen ∧ (t.trace = s.trace ∨ t.trace = s.trace ++ [(s.pc, s.mem.read s.pc.toNat)])

/-! ### Rules of the whole machine -/

/-- The relative base is written by AdjustRelativeBase alone, which adds its operand (R12): a step that leaves another
`rb` ran that operation on a good source and added the source's value. -/
def Obligations.OnlyAdjustRelativeBaseChangesRb : Prop :=
  ∀ s t : State, step s = .next t → t.rb ≠ s.rb →
    ∃ m1 m2 m3, decode (s.mem.read s.pc.toNat) = .ok (.adjustRelativeBase m1 m2 m3) ∧ SourceOk s 1 m1 ∧
      t.rb = s.rb + sourceValue s 1 m1

/-- The observable output only grows, by the one Word of a step that ran Output on it (R96, R141). -/
def Obligations.OutputOnlyGrowsByOutput : Prop :=
  ∀ s t : State, step s = .next t → t.output = s.output ∨
    ∃ m1 m2 m3, decode (s.mem.read s.pc.toNat) = .ok (.output m1 m2 m3) ∧ SourceOk s 1 m1 ∧
      t.output = s.output ++ [sourceValue s 1 m1]

/-- One trace entry for each decoded instruction (R73, R97, R146): a step appends `(pc, opcode cell)` of a decoded
instruction, or it took a fetch or decode fault, or it waited and changed nothing of the block: on the port it already
waited on, or as an Input or an Output whose port answered that it is not ready (a step that waits is a next state by log
entry 7). -/
def Obligations.OneTraceEntryForEachInstruction : Prop :=
  ∀ s t : State, step s = .next t →
    (t.trace = s.trace ++ [(s.pc, s.mem.read s.pc.toNat)] ∧ ∃ i, decode (s.mem.read s.pc.toNat) = .ok i) ∨
    (t.trace = s.trace ∧ t.status = .faulted ∧ ¬ (AccessOk s s.pc ∧ ∃ i, decode (s.mem.read s.pc.toNat) = .ok i)) ∨
    (SameBlock s t ∧ t.waiting ≠ none ∧
      ((s.waiting = some .input ∧ (pollIn s.inPort).1 = .notReady) ∨
        (s.waiting = some .output ∧ (pollOut s.outPort).1 = .notReady) ∨
        (∃ m1 m2 m3, decode (s.mem.read s.pc.toNat) = .ok (.input m1 m2 m3) ∧ (pollIn s.inPort).1 = .notReady) ∨
        ∃ m1 m2 m3, decode (s.mem.read s.pc.toNat) = .ok (.output m1 m2 m3) ∧ SourceOk s 1 m1 ∧
          (pollOut s.outPort).1 = .notReady))

/-- No instruction can see `mem_len`, the trace or the image (R14, R15, R16): two states that differ only in these take
steps whose outcomes differ only in these. -/
def Obligations.HostOnlyStateIsInvisible : Prop :=
  ∀ s t : State, hideHostOnly s = hideHostOnly t → mapNext hideHostOnly (step s) = mapNext hideHostOnly (step t)

/-- The invariant holds after reset. -/
def Obligations.InvariantHoldsAtReset : Prop := Inv State.reset

/-- Every step keeps the invariant, from every state that meets it. -/
def Obligations.EveryStepKeepsTheInvariant : Prop := ∀ s t : State, Inv s → step s = .next t → Inv t

/-! ### Reset and the host commands (spec/10_state.md R23, spec/47_host_commands.md) -/

/-- The values after reset (R23): `pc` and `rb` zero, every cell zero, `mem_len` the image's length, no trace, Ready, no
fault. That the image is the empty one is the model's choice (log entry 2). -/
def Obligations.ResetValues : Prop :=
  State.reset.pc = 0 ∧ State.reset.rb = 0 ∧ (∀ a, State.reset.mem.read a = 0) ∧ State.reset.memLen = 0 ∧
    State.reset.image = [] ∧ State.reset.trace = [] ∧ State.reset.status = .ready ∧ State.reset.fault = none

/-- RESET(MemOnly) (R111, R23, R24, decision D17): of a loaded block, when no RUN and no STEP is in progress, it restores memory to the image
cell for cell, and keeps `rb`, the trace and `pc`; the status is Ready, the fault invalid, and no step waits. -/
def Obligations.MemOnlyResetRestoresTheImage : Prop :=
  ∀ s : State, s.status ≠ .unloaded → s.status ≠ .running → s.pendingStep = false →
    ∃ t, command (.reset .memOnly) s = (t, .done) ∧ (∀ a, t.mem.read a = s.image.getD a 0) ∧
      t.memLen = s.image.length ∧ t.image = s.image ∧ t.rb = s.rb ∧ t.trace = s.trace ∧ t.pc = s.pc ∧
      t.status = .ready ∧ t.fault = none ∧ t.waiting = none

/-- LOAD and RESET(Full) (R110, R111, R117, R23, R160, decision D17): the image, memory a copy of it, `rb` zero, no trace, `pc`
at START_ADDRESS, Ready, no fault; of a loaded block with no STEP pending, RESET(Full) is LOAD of the image. LOAD is admitted
from every status but Running, the time before the first LOAD included (R117). No step waits in the new block, whichever port
a STEP waited on before; that a LOAD is admitted then, and ends the STEP, is log entry 8. -/
def Obligations.LoadConstructsTheBlock : Prop :=
  ∀ s : State, s.status ≠ .running → (∀ img : List Word,
    ∃ t, command (.load img) s = (t, .done) ∧ t.image = img ∧ (∀ a, t.mem.read a = img.getD a 0) ∧
      t.memLen = img.length ∧ t.rb = 0 ∧ t.trace = [] ∧ t.pc = s.config.startAddress ∧ t.status = .ready ∧
      t.fault = none ∧ t.waiting = none) ∧
    (s.status ≠ .unloaded → s.pendingStep = false → command (.reset .full) s = command (.load s.image) s)

/-- Which commands are refused, with nothing changed (R111 to R114, R116 to R119, decisions D23, D29): STEP and RUN unless
Ready, SETPC when Faulted or Running, RESET while a STEP is pending, and every command while Running. RUN from Ready sets
Running, SETPC from Ready or Halted sets `pc` and Ready. The model's choices among these: that DUMP and a change of the
wiring are refused while Running (log entry 19); that RUN only sets Running and replies `running`, its steps being those
that follow (log entry 13); and that SETPC and RUN do so while a STEP is pending too, which leaves the step waiting (log
entry 8). -/
def Obligations.CommandsAreAdmittedByStatus : Prop :=
  ∀ s : State,
    (s.status ≠ .ready → command .step s = (s, .refused) ∧ command .run s = (s, .refused)) ∧
    (s.status = .faulted ∨ s.status = .running → ∀ a, command (.setPc a) s = (s, .refused)) ∧
    (s.status = .running → ∀ c, command c s = (s, .refused)) ∧
    (s.pendingStep = true → ∀ scope, command (.reset scope) s = (s, .refused)) ∧
    (s.status = .ready → command .run s = ({ s with status := .running }, .running)) ∧
    (s.status = .ready ∨ s.status = .halted →
      ∀ a, command (.setPc a) s = ({ s with pc := a, status := .ready }, .done))

/-- STEP (R114): from Ready it takes the one step and reports the status, the next address and the fault record it leaves;
when the step waits on a port the STEP is reported pending, and the step that ends the wait then makes the report (that
the wait goes on by `proceed` is the model's form, log entry 8). -/
def Obligations.StepCommandTakesOneStep : Prop :=
  ∀ s t : State, s.status = .ready → step s = .next t →
    command .step s = (t, if t.pendingStep then .pending else .stepped t.status t.pc t.fault) ∧
    (s.pendingStep = true → proceed s = (t, if t.pendingStep then .pending else .stepped t.status t.pc t.fault))

/-- POKE then PEEK (R118, R119, decision D23): of a loaded block and outside a RUN, POKE at a good address returns the previous value (none for
a new address), PEEK there then returns the value; at a negative address both report an address error and change nothing. -/
def Obligations.PeekReturnsWhatPokeWrote : Prop :=
  ∀ (s : State) (a v : Word), s.status ≠ .unloaded → s.status ≠ .running → s.mem.wf = true →
    (AccessOk s a → ∃ t, command (.poke a v) s =
        (t, .previous (if a.toNat < s.memLen then some (s.mem.read a.toNat) else none)) ∧
      command (.peek a) t = (t, .word v) ∧ t.status = s.status ∧ t.image = s.image ∧ t.pc = s.pc) ∧
    (a.toInt < 0 → command (.poke a v) s = (s, .accessError .addressError (some a)) ∧
      command (.peek a) s = (s, .accessError .addressError (some a)))

/-- Every host command keeps the invariant, a LOAD of an image that fits the address space among them. -/
def Obligations.CommandsKeepTheInvariant : Prop :=
  ∀ (c : Command) (s : State), Inv s → (∀ img, c = .load img → img.length ≤ 2 ^ 63) → Inv (command c s).1

/-! ### Pipelines (spec/60_exceptions.md R148) -/

/-- Channels deliver in the order sent (R42): whichever instance steps, what an instance has sent stays what its channel
has delivered followed by what it still holds; and the Word the channel's reader is handed is always the oldest one held,
which counts as delivered exactly when the reader takes an enabled step at an Input; with nothing held the reader finds the
channel closed or not ready. The model's choices, all of log entry 20, are the ledger, the schedule, and that a channel that
has been closed still hands over the Words it holds and is found closed only when it holds none, where R98 says only that a
closed channel gives `error(ChannelClosed)`. -/
def Obligations.ChannelsDeliverInOrder : Prop :=
  ∀ p : Pipeline, HandsOverOldest p ∧ ∀ k : Nat, InOrder p → InOrder (p.stepAt k)

/-- No channel is filled beyond CHAN_CAP (decision D24; a rendezvous holds the one Word being handed over, log entry 20). -/
def Obligations.ChannelsStayWithinCapacity : Prop :=
  ∀ (p : Pipeline) (k : Nat), WithinCapacity p → WithinCapacity (p.stepAt k)

/-! ### Faults of a target cell and of the sums -/

/-- A target operand whose own cell cannot be fetched (R132, R138): operand 3 of Add, Mul, LessThan and EqualTo, after both
sources; operand 1 of Input, after the port has given its value, which is lost (decision D11). No cell changes. -/
def Obligations.TargetCellFaults : Prop :=
  ∀ (m1 m2 m3 : Mode) (s : State) (bad : Word) (k : FaultKind), AccessOk s s.pc →
    (∀ i, i = .add m1 m2 m3 ∨ i = .mul m1 m2 m3 ∨ i = .lessThan m1 m2 m3 ∨ i = .equalTo m1 m2 m3 →
      SourceOk s 1 m1 → SourceOk s 2 m2 → CellFails s 3 bad k →
      exec i s = .next (faultedWith (started s (sourceCells s 1 m1 ++ sourceCells s 2 m2))
        (some (s.mem.read s.pc.toNat)) k (some bad) none)) ∧
    (∀ (x : Word) (p : InPort), pollIn s.inPort = (.value x, p) → CellFails s 1 bad k →
      exec (.input m1 m2 m3) s = .next (faultedWith { started s [] with inPort := p }
        (some (s.mem.read s.pc.toNat)) k (some bad) none))

/-- ArithOverflow of an address sum, `pc + k` or `p + rb`, under OVF_TRAPS (R137, R138, decisions D2, D12): it is raised
where the sum is formed, for a first source, a second source (of a jump only when taken), the target of the storing
instructions, and the target of Input after the port has given its value. Nothing is written. -/
def Obligations.AddressSumOverflowFaults : Prop :=
  ∀ (m1 m2 m3 : Mode) (s : State) (cells : List Word), AccessOk s s.pc →
    (∀ i, i = .add m1 m2 m3 ∨ i = .mul m1 m2 m3 ∨ i = .output m1 m2 m3 ∨ i = .jumpIfNotZero m1 m2 m3 ∨
        i = .jumpIfZero m1 m2 m3 ∨ i = .lessThan m1 m2 m3 ∨ i = .equalTo m1 m2 m3 ∨
        i = .adjustRelativeBase m1 m2 m3 →
      OperandOverflows s 1 m1 cells →
      exec i s = .next (faultedWith (started s cells) (some (s.mem.read s.pc.toNat)) .arithOverflow none none)) ∧
    (∀ i, i = .add m1 m2 m3 ∨ i = .mul m1 m2 m3 ∨ i = .lessThan m1 m2 m3 ∨ i = .equalTo m1 m2 m3 ∨
        (i = .jumpIfNotZero m1 m2 m3 ∧ sourceValue s 1 m1 ≠ 0) ∨
        (i = .jumpIfZero m1 m2 m3 ∧ sourceValue s 1 m1 = 0) →
      SourceOk s 1 m1 → OperandOverflows s 2 m2 cells →
      exec i s = .next (faultedWith (started s (sourceCells s 1 m1 ++ cells)) (some (s.mem.read s.pc.toNat))
        .arithOverflow none none)) ∧
    (∀ i, i = .add m1 m2 m3 ∨ i = .mul m1 m2 m3 ∨ i = .lessThan m1 m2 m3 ∨ i = .equalTo m1 m2 m3 →
      SourceOk s 1 m1 → SourceOk s 2 m2 → OperandOverflows s 3 m3 cells →
      exec i s = .next (faultedWith (started s (sourceCells s 1 m1 ++ sourceCells s 2 m2 ++ cells))
        (some (s.mem.read s.pc.toNat)) .arithOverflow none none)) ∧
    (∀ (x : Word) (p : InPort), pollIn s.inPort = (.value x, p) → OperandOverflows s 1 m1 cells →
      exec (.input m1 m2 m3) s = .next (faultedWith { started s cells with inPort := p }
        (some (s.mem.read s.pc.toNat)) .arithOverflow none none))

/-- ArithOverflow of the `pc` update under OVF_TRAPS (R138, R139, decision D26): every instruction whose new `pc` is no Word
raises it, and leaves memory, `rb`, the output and the output port as they were; Input has consumed its value. That the
write before it is taken back, against R46's remark, is log entry 12. -/
def Obligations.PcUpdateOverflowFaults : Prop :=
  ∀ (m1 m2 m3 : Mode) (a : Word) (s : State), AccessOk s s.pc →
    (∀ i, (i = .add m1 m2 m3 ∧ SumOk s (sourceValue s 1 m1) (sourceValue s 2 m2)) ∨
        (i = .mul m1 m2 m3 ∧ ProductOk s (sourceValue s 1 m1) (sourceValue s 2 m2)) ∨
        i = .lessThan m1 m2 m3 ∨ i = .equalTo m1 m2 m3 →
      SourceOk s 1 m1 → SourceOk s 2 m2 → TargetOk s 3 m3 a → ¬ SumOk s s.pc 4 →
      exec i s = .next (faultedWith (started s (fourCellReads s m1 m2)) (some (s.mem.read s.pc.toNat))
        .arithOverflow none none)) ∧
    (∀ (x : Word) (p : InPort), pollIn s.inPort = (.value x, p) → TargetOk s 1 m1 a → ¬ SumOk s s.pc 2 →
      exec (.input m1 m2 m3) s = .next (faultedWith { started s [operandCell s 1] with inPort := p }
        (some (s.mem.read s.pc.toNat)) .arithOverflow none none)) ∧
    (∀ i, (i = .adjustRelativeBase m1 m2 m3 ∧ SumOk s s.rb (sourceValue s 1 m1) ∧ ¬ SumOk s s.pc 2) ∨
        (i = .output m1 m2 m3 ∧ (pollOut s.outPort).1 = .accepted ∧ ¬ SumOk s s.pc 2) ∨
        (i = .jumpIfNotZero m1 m2 m3 ∧ sourceValue s 1 m1 = 0 ∧ ¬ SumOk s s.pc 3) ∨
        (i = .jumpIfZero m1 m2 m3 ∧ sourceValue s 1 m1 ≠ 0 ∧ ¬ SumOk s s.pc 3) →
      SourceOk s 1 m1 →
      exec i s = .next (faultedWith (started s (sourceCells s 1 m1)) (some (s.mem.read s.pc.toNat))
        .arithOverflow none none))

/-! ### Before the first LOAD, and what a RUN returns -/

/-- Before the first LOAD (R110, R117's row "(none)"): every command but LOAD is refused and changes nothing, and LOAD makes
the block Ready. -/
def Obligations.BeforeTheFirstLoadOnlyLoad : Prop :=
  ∀ s : State, s.status = .unloaded →
    (∀ c, (∀ img, c ≠ .load img) → command c s = (s, .refused)) ∧
    (∀ img, ∃ t, command (.load img) s = (t, .done) ∧ t.status = .ready ∧ t.image = img)

/-- What a RUN reports as it goes on (R113): each of its steps leaves it running until one halts or faults, and it then
returns that status and, on Fault, the record. -/
def Obligations.RunReportsEachStep : Prop :=
  ∀ s t : State, s.status = .running → step s = .next t →
    (t.status = .running → proceed s = (t, .running)) ∧
    (t.status = .halted → proceed s = (t, .ended .halted none)) ∧
    (t.status = .faulted → proceed s = (t, .ended .faulted t.fault))

/-- RUN (R80, R113): from Ready it is the steps taken one after another from status Running; if these come to Halted or
Faulted within `n` steps, RUN returns that status and, on Fault, the record, and stays there however long one waits. -/
def Obligations.RunReturnsHowItEnded : Prop :=
  ∀ (n m : Nat) (s t : State), s.status = .ready → runFor n { s with status := .running } = t → n ≤ m →
    (t.status = .halted → runCommand m s = (t, .ended .halted none)) ∧
    (t.status = .faulted → runCommand m s = (t, .ended .faulted t.fault))

/-! ### A step that waits -/

/-- A wait holds the block (R79, R97, R150): while a step waits on a port, no command ends the wait but the STEP that asks the
port again and the LOAD that constructs another block; and while the port is not ready every step leaves all of the block and
the wait as they are, so that no instruction runs. That LOAD, SETPC and POKE are accepted meanwhile, the latter two acting on
what the step will find, is log entry 8. -/
def Obligations.AWaitingStepHoldsTheBlock : Prop :=
  ∀ (s : State) (d : IoDir), s.waiting = some d → s.status = .ready ∨ s.status = .running →
    (∀ c, c ≠ .step → (∀ img, c ≠ .load img) → (command c s).1.waiting = some d) ∧
    ((d = .input ∧ (pollIn s.inPort).1 = .notReady) ∨ (d = .output ∧ (pollOut s.outPort).1 = .notReady) →
      ∃ t, step s = .next t ∧ SameBlock s t ∧ t.waiting = some d)
end

