-- ==== Sys2Proof/Laws/Decode.lean ====
section
/-! SUPPORT. What the decoder's tables answer. -/

namespace Sys2Proof

/-- The decimal digits of the opcode cell as the table names them (spec/30_encoding.md R51). -/
theorem digit_two (v : Nat) : digit v 2 = v / 100 % 10 := rfl
theorem digit_three (v : Nat) : digit v 3 = v / 1000 % 10 := rfl
theorem digit_four (v : Nat) : digit v 4 = v / 10000 % 10 := rfl

@[simp] theorem modeOf_digit (m : Mode) : modeOf m.digit = some m := by cases m <;> rfl

theorem Mode.digit_le (m : Mode) : m.digit ≤ 2 := by cases m <;> decide

/-- A digit is a mode exactly when it is that mode's digit. -/
theorem modeOf_eq_some {d : Nat} {m : Mode} : modeOf d = some m ↔ d = m.digit := by
  constructor
  · intro h
    unfold modeOf at h
    split at h <;> cases h <;> rfl
  · rintro rfl
    exact modeOf_digit m

theorem modeOf_eq_none {d : Nat} : modeOf d = none ↔ 2 < d := by
  unfold modeOf
  split
  · simp
  · simp
  · simp
  · simp_all; omega

/-- The operation of an instruction is the one its opcode number names. -/
theorem operationOf_opcode (i : Instr) :
    ∃ op, operationOf i.opcode = some op ∧ op i.modes.1 i.modes.2.1 i.modes.2.2 = i := by
  cases i <;> exact ⟨_, rfl, rfl⟩

/-- A remainder names an operation only if it is that operation's number. -/
theorem opcode_of_operationOf {n : Nat} {op : Mode → Mode → Mode → Instr} (h : operationOf n = some op)
    (m1 m2 m3 : Mode) : (op m1 m2 m3).opcode = n ∧ (op m1 m2 m3).modes = (m1, m2, m3) := by
  unfold operationOf at h
  split at h <;> cases h <;> exact ⟨rfl, rfl⟩

theorem operationOf_eq_none {n : Nat} :
    operationOf n = none ↔ n ∉ [1, 2, 3, 4, 5, 6, 7, 8, 9, 99] := by
  unfold operationOf
  split <;> simp_all

theorem Instr.opcode_lt (i : Instr) : i.opcode < 100 := by cases i <;> simp [Instr.opcode]

/-- What a successful decoding says of the cell. -/
theorem decode_eq_ok {v : Word} {i : Instr} (h : decode v = .ok i) :
    0 ≤ v.toInt ∧ v.toNat % 100 = i.opcode ∧ digit v.toNat 2 = i.modes.1.digit ∧
      digit v.toNat 3 = i.modes.2.1.digit ∧ digit v.toNat 4 = i.modes.2.2.digit := by
  unfold decode at h
  split at h
  · cases h
  · next hv =>
    split at h
    · cases h
    · next op hop =>
      split at h
      · next m1 m2 m3 h1 h2 h3 =>
        cases h
        obtain ⟨ho, hm⟩ := opcode_of_operationOf hop m1 m2 m3
        rw [hm, ho]
        exact ⟨by omega, rfl, modeOf_eq_some.1 h1, modeOf_eq_some.1 h2, modeOf_eq_some.1 h3⟩
      · cases h

end Sys2Proof
end

