-- ==== Sys2Proof/Laws/Memory.lean ====
section
/-! SUPPORT. The laws of memory cells: reading what was written, and the canonical form. -/

namespace Sys2Proof.Machine

@[simp] theorem Memory.read_nil (a : Nat) : Memory.read [] a = 0 := rfl

theorem Memory.read_cons (b a : Nat) (w : Word) (m : Memory) :
    Memory.read ((b, w) :: m) a = if b = a then w else m.read a := rfl

/-- An address that is not listed reads as zero. -/
theorem Memory.read_of_not_listed {m : Memory} {a : Nat} (h : ∀ c ∈ m, c.1 ≠ a) : m.read a = 0 := by
  induction m with
  | nil => rfl
  | cons c m ih =>
    obtain ⟨b, w⟩ := c
    rw [Memory.read_cons, if_neg (h (b, w) (by simp)), ih fun c hc => h c (by simp [hc])]

/-- What the canonical form says of a non-empty memory. -/
theorem Memory.wf_cons {b : Nat} {w : Word} {m : Memory} :
    Memory.wf ((b, w) :: m) = true ↔ w ≠ 0 ∧ (∀ c ∈ m, b < c.1) ∧ m.wf = true := by
  simp [Memory.wf, and_assoc]

/-- A cell below every listed one reads as zero. -/
theorem Memory.read_of_below {m : Memory} {a : Nat} (h : ∀ c ∈ m, a < c.1) : m.read a = 0 :=
  Memory.read_of_not_listed fun c hc he => Nat.lt_irrefl _ (he ▸ h c hc)

/-- A write lists no address but the old ones and its own. -/
theorem Memory.mem_write {m : Memory} {a : Nat} {v : Word} {c : Nat × Word} (h : c ∈ m.write a v) :
    c ∈ m ∨ c.1 = a := by
  induction m with
  | nil =>
    unfold Memory.write at h
    split at h <;> simp_all
  | cons d m ih =>
    obtain ⟨b, w⟩ := d
    unfold Memory.write at h
    split at h
    · split at h
      · exact .inl h
      · rcases List.mem_cons.1 h with rfl | h
        · exact .inr rfl
        · exact .inl h
    · split at h
      · split at h
        · exact .inl (List.mem_cons_of_mem _ h)
        · rcases List.mem_cons.1 h with rfl | h
          · exact .inr rfl
          · exact .inl (List.mem_cons_of_mem _ h)
      · rcases List.mem_cons.1 h with rfl | h
        · exact .inl List.mem_cons_self
        · exact (ih h).imp_left (List.mem_cons_of_mem _)

/-- The law of memory: the written cell reads as the value, every other cell as before. -/
theorem Memory.read_write {m : Memory} (hm : m.wf = true) (a b : Nat) (v : Word) :
    (m.write a v).read b = if a = b then v else m.read b := by
  induction m with
  | nil =>
    unfold Memory.write
    split <;> simp_all [Memory.read_cons]
  | cons d m ih =>
    obtain ⟨c, w⟩ := d
    obtain ⟨_, hlt, hm⟩ := Memory.wf_cons.1 hm
    have hc : Memory.read m c = 0 := Memory.read_of_below hlt
    unfold Memory.write
    split
    · next hac =>
      have ha : Memory.read m a = 0 := Memory.read_of_below fun d hd => Nat.lt_trans hac (hlt d hd)
      split
      · by_cases hab : a = b
        · subst hab; rw [Memory.read_cons, if_neg (by omega), ha, if_pos rfl]; simp_all
        · rw [if_neg hab]
      · rw [Memory.read_cons]
    · split
      · next hac =>
        subst hac
        split
        · by_cases hab : a = b
          · subst hab; simp_all
          · simp [Memory.read_cons, hab]
        · by_cases hab : a = b <;> simp [Memory.read_cons, hab]
      · next hac =>
        rw [Memory.read_cons, ih hm, Memory.read_cons]
        by_cases hab : a = b
        · subst hab; rw [if_neg (by omega), if_pos rfl, if_pos rfl]
        · simp [hab]

/-- A write keeps the canonical form. -/
theorem Memory.wf_write {m : Memory} (hm : m.wf = true) (a : Nat) (v : Word) : (m.write a v).wf = true := by
  induction m with
  | nil =>
    unfold Memory.write
    split
    · rfl
    · exact Memory.wf_cons.2 ⟨‹_›, by simp, rfl⟩
  | cons d m ih =>
    obtain ⟨c, w⟩ := d
    obtain ⟨hw, hlt, hm'⟩ := Memory.wf_cons.1 hm
    unfold Memory.write
    split
    · next hac =>
      split
      · exact hm
      · refine Memory.wf_cons.2 ⟨‹_›, fun d hd => ?_, hm⟩
        rcases List.mem_cons.1 hd with rfl | hd
        · exact hac
        · exact Nat.lt_trans hac (hlt d hd)
    · split
      · next hac =>
        subst hac
        split
        · exact hm'
        · exact Memory.wf_cons.2 ⟨‹_›, hlt, hm'⟩
      · next hca hne =>
        refine Memory.wf_cons.2 ⟨hw, fun d hd => ?_, ih hm'⟩
        rcases Memory.mem_write hd with hd | hd
        · exact hlt d hd
        · omega

/-- Every cell of a laid-out image lies in its range. -/
theorem Memory.ofImage_range {k : Nat} {ws : List Word} {c : Nat × Word} (h : c ∈ Memory.ofImage k ws) :
    k ≤ c.1 ∧ c.1 < k + ws.length := by
  induction ws generalizing k with
  | nil => simp [Memory.ofImage] at h
  | cons w ws ih =>
    unfold Memory.ofImage at h
    split at h
    · have := ih h; simp; omega
    · rcases List.mem_cons.1 h with rfl | h
      · simp
      · have := ih h; simp; omega

/-- A laid-out image is in canonical form. -/
theorem Memory.wf_ofImage (k : Nat) (ws : List Word) : (Memory.ofImage k ws).wf = true := by
  induction ws generalizing k with
  | nil => rfl
  | cons w ws ih =>
    unfold Memory.ofImage
    split
    · exact ih _
    · exact Memory.wf_cons.2 ⟨‹_›, fun c hc => (Memory.ofImage_range hc).1, ih _⟩

/-- A laid-out image reads as the image, and as zero elsewhere. -/
theorem Memory.read_ofImage (k : Nat) (ws : List Word) (a : Nat) :
    (Memory.ofImage k ws).read a = if k ≤ a then ws.getD (a - k) 0 else 0 := by
  induction ws generalizing k with
  | nil => simp [Memory.ofImage]
  | cons w ws ih =>
    have hstep : k + 1 ≤ a → (w :: ws).getD (a - k) 0 = ws.getD (a - (k + 1)) 0 := by
      intro h
      obtain ⟨d, rfl⟩ := Nat.exists_eq_add_of_le h
      rw [show k + 1 + d - k = d + 1 by omega, show k + 1 + d - (k + 1) = d by omega]
      rfl
    have hrest : (Memory.ofImage (k + 1) ws).read a = if k + 1 ≤ a then (w :: ws).getD (a - k) 0 else 0 := by
      rw [ih]
      by_cases h : k + 1 ≤ a
      · rw [if_pos h, if_pos h, hstep h]
      · rw [if_neg h, if_neg h]
    have hhere : k = a → (w :: ws).getD (a - k) 0 = w := by rintro rfl; simp
    unfold Memory.ofImage
    by_cases hka : k = a
    · rw [if_pos (Nat.le_of_eq hka), hhere hka]
      split
      · next hw => rw [hrest, if_neg (by omega), hw]
      · rw [Memory.read_cons, if_pos hka]
    · split
      · rw [hrest]
        by_cases h : k + 1 ≤ a
        · rw [if_pos h, if_pos (by omega)]
        · rw [if_neg h, if_neg (by omega)]
      · rw [Memory.read_cons, if_neg hka, hrest]
        by_cases h : k + 1 ≤ a
        · rw [if_pos h, if_pos (by omega)]
        · rw [if_neg h, if_neg (by omega)]

end Sys2Proof.Machine
end

