-- ==== Sys2Proof/Laws/State.lean ====
section
/-! SUPPORT. What each named update of the state does to each field. -/

namespace Sys2Proof.Machine

/-! ### setPc -/

@[simp] theorem State.setPc_pc (s : State) (a : Word) : (s.setPc a).pc = a := rfl
@[simp] theorem State.setPc_rb (s : State) (a : Word) : (s.setPc a).rb = s.rb := rfl
@[simp] theorem State.setPc_mem (s : State) (a : Word) : (s.setPc a).mem = s.mem := rfl
@[simp] theorem State.setPc_memLen (s : State) (a : Word) : (s.setPc a).memLen = s.memLen := rfl
@[simp] theorem State.setPc_image (s : State) (a : Word) : (s.setPc a).image = s.image := rfl
@[simp] theorem State.setPc_trace (s : State) (a : Word) : (s.setPc a).trace = s.trace := rfl
@[simp] theorem State.setPc_status (s : State) (a : Word) : (s.setPc a).status = s.status := rfl
@[simp] theorem State.setPc_fault (s : State) (a : Word) : (s.setPc a).fault = s.fault := rfl
@[simp] theorem State.setPc_output (s : State) (a : Word) : (s.setPc a).output = s.output := rfl
@[simp] theorem State.setPc_inPort (s : State) (a : Word) : (s.setPc a).inPort = s.inPort := rfl
@[simp] theorem State.setPc_outPort (s : State) (a : Word) : (s.setPc a).outPort = s.outPort := rfl
@[simp] theorem State.setPc_waiting (s : State) (a : Word) : (s.setPc a).waiting = s.waiting := rfl
@[simp] theorem State.setPc_config (s : State) (a : Word) : (s.setPc a).config = s.config := rfl

/-! ### setRb -/

@[simp] theorem State.setRb_pc (s : State) (w : Word) : (s.setRb w).pc = s.pc := rfl
@[simp] theorem State.setRb_rb (s : State) (w : Word) : (s.setRb w).rb = w := rfl
@[simp] theorem State.setRb_mem (s : State) (w : Word) : (s.setRb w).mem = s.mem := rfl
@[simp] theorem State.setRb_memLen (s : State) (w : Word) : (s.setRb w).memLen = s.memLen := rfl
@[simp] theorem State.setRb_image (s : State) (w : Word) : (s.setRb w).image = s.image := rfl
@[simp] theorem State.setRb_trace (s : State) (w : Word) : (s.setRb w).trace = s.trace := rfl
@[simp] theorem State.setRb_status (s : State) (w : Word) : (s.setRb w).status = s.status := rfl
@[simp] theorem State.setRb_fault (s : State) (w : Word) : (s.setRb w).fault = s.fault := rfl
@[simp] theorem State.setRb_output (s : State) (w : Word) : (s.setRb w).output = s.output := rfl
@[simp] theorem State.setRb_inPort (s : State) (w : Word) : (s.setRb w).inPort = s.inPort := rfl
@[simp] theorem State.setRb_outPort (s : State) (w : Word) : (s.setRb w).outPort = s.outPort := rfl
@[simp] theorem State.setRb_waiting (s : State) (w : Word) : (s.setRb w).waiting = s.waiting := rfl
@[simp] theorem State.setRb_config (s : State) (w : Word) : (s.setRb w).config = s.config := rfl

/-! ### setMem -/

@[simp] theorem State.setMem_pc (s : State) (m : Memory) : (s.setMem m).pc = s.pc := rfl
@[simp] theorem State.setMem_rb (s : State) (m : Memory) : (s.setMem m).rb = s.rb := rfl
@[simp] theorem State.setMem_mem (s : State) (m : Memory) : (s.setMem m).mem = m := rfl
@[simp] theorem State.setMem_memLen (s : State) (m : Memory) : (s.setMem m).memLen = s.memLen := rfl
@[simp] theorem State.setMem_image (s : State) (m : Memory) : (s.setMem m).image = s.image := rfl
@[simp] theorem State.setMem_trace (s : State) (m : Memory) : (s.setMem m).trace = s.trace := rfl
@[simp] theorem State.setMem_status (s : State) (m : Memory) : (s.setMem m).status = s.status := rfl
@[simp] theorem State.setMem_fault (s : State) (m : Memory) : (s.setMem m).fault = s.fault := rfl
@[simp] theorem State.setMem_output (s : State) (m : Memory) : (s.setMem m).output = s.output := rfl
@[simp] theorem State.setMem_inPort (s : State) (m : Memory) : (s.setMem m).inPort = s.inPort := rfl
@[simp] theorem State.setMem_outPort (s : State) (m : Memory) : (s.setMem m).outPort = s.outPort := rfl
@[simp] theorem State.setMem_waiting (s : State) (m : Memory) : (s.setMem m).waiting = s.waiting := rfl
@[simp] theorem State.setMem_config (s : State) (m : Memory) : (s.setMem m).config = s.config := rfl

/-! ### setMemLen -/

@[simp] theorem State.setMemLen_pc (s : State) (n : Nat) : (s.setMemLen n).pc = s.pc := rfl
@[simp] theorem State.setMemLen_rb (s : State) (n : Nat) : (s.setMemLen n).rb = s.rb := rfl
@[simp] theorem State.setMemLen_mem (s : State) (n : Nat) : (s.setMemLen n).mem = s.mem := rfl
@[simp] theorem State.setMemLen_memLen (s : State) (n : Nat) : (s.setMemLen n).memLen = n := rfl
@[simp] theorem State.setMemLen_image (s : State) (n : Nat) : (s.setMemLen n).image = s.image := rfl
@[simp] theorem State.setMemLen_trace (s : State) (n : Nat) : (s.setMemLen n).trace = s.trace := rfl
@[simp] theorem State.setMemLen_status (s : State) (n : Nat) : (s.setMemLen n).status = s.status := rfl
@[simp] theorem State.setMemLen_fault (s : State) (n : Nat) : (s.setMemLen n).fault = s.fault := rfl
@[simp] theorem State.setMemLen_output (s : State) (n : Nat) : (s.setMemLen n).output = s.output := rfl
@[simp] theorem State.setMemLen_inPort (s : State) (n : Nat) : (s.setMemLen n).inPort = s.inPort := rfl
@[simp] theorem State.setMemLen_outPort (s : State) (n : Nat) : (s.setMemLen n).outPort = s.outPort := rfl
@[simp] theorem State.setMemLen_waiting (s : State) (n : Nat) : (s.setMemLen n).waiting = s.waiting := rfl
@[simp] theorem State.setMemLen_config (s : State) (n : Nat) : (s.setMemLen n).config = s.config := rfl

/-! ### setTrace -/

@[simp] theorem State.setTrace_pc (s : State) (t : List (Word × Word)) : (s.setTrace t).pc = s.pc := rfl
@[simp] theorem State.setTrace_rb (s : State) (t : List (Word × Word)) : (s.setTrace t).rb = s.rb := rfl
@[simp] theorem State.setTrace_mem (s : State) (t : List (Word × Word)) : (s.setTrace t).mem = s.mem := rfl
@[simp] theorem State.setTrace_memLen (s : State) (t : List (Word × Word)) : (s.setTrace t).memLen = s.memLen := rfl
@[simp] theorem State.setTrace_image (s : State) (t : List (Word × Word)) : (s.setTrace t).image = s.image := rfl
@[simp] theorem State.setTrace_trace (s : State) (t : List (Word × Word)) : (s.setTrace t).trace = t := rfl
@[simp] theorem State.setTrace_status (s : State) (t : List (Word × Word)) : (s.setTrace t).status = s.status := rfl
@[simp] theorem State.setTrace_fault (s : State) (t : List (Word × Word)) : (s.setTrace t).fault = s.fault := rfl
@[simp] theorem State.setTrace_output (s : State) (t : List (Word × Word)) : (s.setTrace t).output = s.output := rfl
@[simp] theorem State.setTrace_inPort (s : State) (t : List (Word × Word)) : (s.setTrace t).inPort = s.inPort := rfl
@[simp] theorem State.setTrace_outPort (s : State) (t : List (Word × Word)) : (s.setTrace t).outPort = s.outPort := rfl
@[simp] theorem State.setTrace_waiting (s : State) (t : List (Word × Word)) : (s.setTrace t).waiting = s.waiting := rfl
@[simp] theorem State.setTrace_config (s : State) (t : List (Word × Word)) : (s.setTrace t).config = s.config := rfl

/-! ### setStatus -/

@[simp] theorem State.setStatus_pc (s : State) (x : Status) : (s.setStatus x).pc = s.pc := rfl
@[simp] theorem State.setStatus_rb (s : State) (x : Status) : (s.setStatus x).rb = s.rb := rfl
@[simp] theorem State.setStatus_mem (s : State) (x : Status) : (s.setStatus x).mem = s.mem := rfl
@[simp] theorem State.setStatus_memLen (s : State) (x : Status) : (s.setStatus x).memLen = s.memLen := rfl
@[simp] theorem State.setStatus_image (s : State) (x : Status) : (s.setStatus x).image = s.image := rfl
@[simp] theorem State.setStatus_trace (s : State) (x : Status) : (s.setStatus x).trace = s.trace := rfl
@[simp] theorem State.setStatus_status (s : State) (x : Status) : (s.setStatus x).status = x := rfl
@[simp] theorem State.setStatus_fault (s : State) (x : Status) : (s.setStatus x).fault = s.fault := rfl
@[simp] theorem State.setStatus_output (s : State) (x : Status) : (s.setStatus x).output = s.output := rfl
@[simp] theorem State.setStatus_inPort (s : State) (x : Status) : (s.setStatus x).inPort = s.inPort := rfl
@[simp] theorem State.setStatus_outPort (s : State) (x : Status) : (s.setStatus x).outPort = s.outPort := rfl
@[simp] theorem State.setStatus_waiting (s : State) (x : Status) : (s.setStatus x).waiting = s.waiting := rfl
@[simp] theorem State.setStatus_config (s : State) (x : Status) : (s.setStatus x).config = s.config := rfl

/-! ### setFault -/

@[simp] theorem State.setFault_pc (s : State) (f : Option FaultRecord) : (s.setFault f).pc = s.pc := rfl
@[simp] theorem State.setFault_rb (s : State) (f : Option FaultRecord) : (s.setFault f).rb = s.rb := rfl
@[simp] theorem State.setFault_mem (s : State) (f : Option FaultRecord) : (s.setFault f).mem = s.mem := rfl
@[simp] theorem State.setFault_memLen (s : State) (f : Option FaultRecord) : (s.setFault f).memLen = s.memLen := rfl
@[simp] theorem State.setFault_image (s : State) (f : Option FaultRecord) : (s.setFault f).image = s.image := rfl
@[simp] theorem State.setFault_trace (s : State) (f : Option FaultRecord) : (s.setFault f).trace = s.trace := rfl
@[simp] theorem State.setFault_status (s : State) (f : Option FaultRecord) : (s.setFault f).status = s.status := rfl
@[simp] theorem State.setFault_fault (s : State) (f : Option FaultRecord) : (s.setFault f).fault = f := rfl
@[simp] theorem State.setFault_output (s : State) (f : Option FaultRecord) : (s.setFault f).output = s.output := rfl
@[simp] theorem State.setFault_inPort (s : State) (f : Option FaultRecord) : (s.setFault f).inPort = s.inPort := rfl
@[simp] theorem State.setFault_outPort (s : State) (f : Option FaultRecord) : (s.setFault f).outPort = s.outPort := rfl
@[simp] theorem State.setFault_waiting (s : State) (f : Option FaultRecord) : (s.setFault f).waiting = s.waiting := rfl
@[simp] theorem State.setFault_config (s : State) (f : Option FaultRecord) : (s.setFault f).config = s.config := rfl

/-! ### setOutput -/

@[simp] theorem State.setOutput_pc (s : State) (ws : List Word) : (s.setOutput ws).pc = s.pc := rfl
@[simp] theorem State.setOutput_rb (s : State) (ws : List Word) : (s.setOutput ws).rb = s.rb := rfl
@[simp] theorem State.setOutput_mem (s : State) (ws : List Word) : (s.setOutput ws).mem = s.mem := rfl
@[simp] theorem State.setOutput_memLen (s : State) (ws : List Word) : (s.setOutput ws).memLen = s.memLen := rfl
@[simp] theorem State.setOutput_image (s : State) (ws : List Word) : (s.setOutput ws).image = s.image := rfl
@[simp] theorem State.setOutput_trace (s : State) (ws : List Word) : (s.setOutput ws).trace = s.trace := rfl
@[simp] theorem State.setOutput_status (s : State) (ws : List Word) : (s.setOutput ws).status = s.status := rfl
@[simp] theorem State.setOutput_fault (s : State) (ws : List Word) : (s.setOutput ws).fault = s.fault := rfl
@[simp] theorem State.setOutput_output (s : State) (ws : List Word) : (s.setOutput ws).output = ws := rfl
@[simp] theorem State.setOutput_inPort (s : State) (ws : List Word) : (s.setOutput ws).inPort = s.inPort := rfl
@[simp] theorem State.setOutput_outPort (s : State) (ws : List Word) : (s.setOutput ws).outPort = s.outPort := rfl
@[simp] theorem State.setOutput_waiting (s : State) (ws : List Word) : (s.setOutput ws).waiting = s.waiting := rfl
@[simp] theorem State.setOutput_config (s : State) (ws : List Word) : (s.setOutput ws).config = s.config := rfl

/-! ### setInPort -/

@[simp] theorem State.setInPort_pc (s : State) (p : InPort) : (s.setInPort p).pc = s.pc := rfl
@[simp] theorem State.setInPort_rb (s : State) (p : InPort) : (s.setInPort p).rb = s.rb := rfl
@[simp] theorem State.setInPort_mem (s : State) (p : InPort) : (s.setInPort p).mem = s.mem := rfl
@[simp] theorem State.setInPort_memLen (s : State) (p : InPort) : (s.setInPort p).memLen = s.memLen := rfl
@[simp] theorem State.setInPort_image (s : State) (p : InPort) : (s.setInPort p).image = s.image := rfl
@[simp] theorem State.setInPort_trace (s : State) (p : InPort) : (s.setInPort p).trace = s.trace := rfl
@[simp] theorem State.setInPort_status (s : State) (p : InPort) : (s.setInPort p).status = s.status := rfl
@[simp] theorem State.setInPort_fault (s : State) (p : InPort) : (s.setInPort p).fault = s.fault := rfl
@[simp] theorem State.setInPort_output (s : State) (p : InPort) : (s.setInPort p).output = s.output := rfl
@[simp] theorem State.setInPort_inPort (s : State) (p : InPort) : (s.setInPort p).inPort = p := rfl
@[simp] theorem State.setInPort_outPort (s : State) (p : InPort) : (s.setInPort p).outPort = s.outPort := rfl
@[simp] theorem State.setInPort_waiting (s : State) (p : InPort) : (s.setInPort p).waiting = s.waiting := rfl
@[simp] theorem State.setInPort_config (s : State) (p : InPort) : (s.setInPort p).config = s.config := rfl

/-! ### setOutPort -/

@[simp] theorem State.setOutPort_pc (s : State) (p : OutPort) : (s.setOutPort p).pc = s.pc := rfl
@[simp] theorem State.setOutPort_rb (s : State) (p : OutPort) : (s.setOutPort p).rb = s.rb := rfl
@[simp] theorem State.setOutPort_mem (s : State) (p : OutPort) : (s.setOutPort p).mem = s.mem := rfl
@[simp] theorem State.setOutPort_memLen (s : State) (p : OutPort) : (s.setOutPort p).memLen = s.memLen := rfl
@[simp] theorem State.setOutPort_image (s : State) (p : OutPort) : (s.setOutPort p).image = s.image := rfl
@[simp] theorem State.setOutPort_trace (s : State) (p : OutPort) : (s.setOutPort p).trace = s.trace := rfl
@[simp] theorem State.setOutPort_status (s : State) (p : OutPort) : (s.setOutPort p).status = s.status := rfl
@[simp] theorem State.setOutPort_fault (s : State) (p : OutPort) : (s.setOutPort p).fault = s.fault := rfl
@[simp] theorem State.setOutPort_output (s : State) (p : OutPort) : (s.setOutPort p).output = s.output := rfl
@[simp] theorem State.setOutPort_inPort (s : State) (p : OutPort) : (s.setOutPort p).inPort = s.inPort := rfl
@[simp] theorem State.setOutPort_outPort (s : State) (p : OutPort) : (s.setOutPort p).outPort = p := rfl
@[simp] theorem State.setOutPort_waiting (s : State) (p : OutPort) : (s.setOutPort p).waiting = s.waiting := rfl
@[simp] theorem State.setOutPort_config (s : State) (p : OutPort) : (s.setOutPort p).config = s.config := rfl

/-! ### setWaiting -/

@[simp] theorem State.setWaiting_pc (s : State) (d : Option IoDir) : (s.setWaiting d).pc = s.pc := rfl
@[simp] theorem State.setWaiting_rb (s : State) (d : Option IoDir) : (s.setWaiting d).rb = s.rb := rfl
@[simp] theorem State.setWaiting_mem (s : State) (d : Option IoDir) : (s.setWaiting d).mem = s.mem := rfl
@[simp] theorem State.setWaiting_memLen (s : State) (d : Option IoDir) : (s.setWaiting d).memLen = s.memLen := rfl
@[simp] theorem State.setWaiting_image (s : State) (d : Option IoDir) : (s.setWaiting d).image = s.image := rfl
@[simp] theorem State.setWaiting_trace (s : State) (d : Option IoDir) : (s.setWaiting d).trace = s.trace := rfl
@[simp] theorem State.setWaiting_status (s : State) (d : Option IoDir) : (s.setWaiting d).status = s.status := rfl
@[simp] theorem State.setWaiting_fault (s : State) (d : Option IoDir) : (s.setWaiting d).fault = s.fault := rfl
@[simp] theorem State.setWaiting_output (s : State) (d : Option IoDir) : (s.setWaiting d).output = s.output := rfl
@[simp] theorem State.setWaiting_inPort (s : State) (d : Option IoDir) : (s.setWaiting d).inPort = s.inPort := rfl
@[simp] theorem State.setWaiting_outPort (s : State) (d : Option IoDir) : (s.setWaiting d).outPort = s.outPort := rfl
@[simp] theorem State.setWaiting_waiting (s : State) (d : Option IoDir) : (s.setWaiting d).waiting = d := rfl
@[simp] theorem State.setWaiting_config (s : State) (d : Option IoDir) : (s.setWaiting d).config = s.config := rfl

end Sys2Proof.Machine
end

