-- ==== Sys2Proof/Laws/Ops.lean ====
section
/-! SUPPORT. What each shared operation does, said once: words and arithmetic, growth, the memory primitives, the operand
forms, the ports. -/

namespace Sys2Proof.Machine

/-! ### Results -/

@[simp] theorem Result.bind_ok {α β : Type} (x : α) (s : State) (f : α → State → Result β) :
    (Result.ok x s).bind f = f x s := rfl
@[simp] theorem Result.bind_raise {α β : Type} (c : Cause) (s : State) (f : α → State → Result β) :
    (Result.raise c s : Result α).bind f = .raise c s := rfl
@[simp] theorem Result.bind_blocked {α β : Type} (d : IoDir) (i : InPort) (o : OutPort) (f : α → State → Result β) :
    (Result.blocked d i o : Result α).bind f = .blocked d i o := rfl

@[simp] theorem Result.undoTo_ok {α : Type} (x : α) (t s : State) : (Result.ok x t).undoTo s = .ok x t := rfl
@[simp] theorem Result.undoTo_raise {α : Type} (c : Cause) (t s : State) :
    (Result.raise c t : Result α).undoTo s = .raise c s := rfl
@[simp] theorem Result.undoTo_blocked {α : Type} (d : IoDir) (i : InPort) (o : OutPort) (s : State) :
    (Result.blocked d i o : Result α).undoTo s = .blocked d i o := rfl

/-- A bind answers a value only through a first value. -/
theorem Result.bind_eq_ok {α β : Type} {r : Result α} {f : α → State → Result β} {y : β} {t : State}
    (h : r.bind f = .ok y t) : ∃ x u, r = .ok x u ∧ f x u = .ok y t := by
  cases r with
  | ok x u => exact ⟨x, u, rfl, h⟩
  | raise c u => cases h
  | blocked d i o => cases h

/-- `P` holds of the state a result leaves, whether it gives a value or raises. -/
def Result.All {α : Type} (P : State → Prop) : Result α → Prop
  | .ok _ s => P s
  | .raise _ s => P s
  | .blocked _ _ _ => True

@[simp] theorem Result.all_ok {α : Type} (P : State → Prop) (x : α) (s : State) :
    (Result.ok x s).All P ↔ P s := Iff.rfl
@[simp] theorem Result.all_raise {α : Type} (P : State → Prop) (c : Cause) (s : State) :
    (Result.raise c s : Result α).All P ↔ P s := Iff.rfl

/-- Chain a property through a bind: the first part establishes it, the continuation keeps it. -/
theorem Result.All.bind {α β : Type} {P Q : State → Prop} {r : Result α} {f : α → State → Result β}
    (hr : r.All P) (hPQ : ∀ s, P s → Q s) (hf : ∀ x s, P s → (f x s).All Q) : (r.bind f).All Q := by
  cases r with
  | ok x s => exact hf x s hr
  | raise c s => exact hPQ s hr
  | blocked d i o => trivial

theorem Result.All.mono {α : Type} {P Q : State → Prop} {r : Result α} (hr : r.All P) (h : ∀ s, P s → Q s) :
    r.All Q := by
  cases r with
  | ok x s => exact h s hr
  | raise c s => exact h s hr
  | blocked d i o => trivial

/-- The result does not wait on a port. -/
def Result.NeverBlocks {α : Type} (r : Result α) : Prop := ∀ d i o, r ≠ .blocked d i o

theorem Result.NeverBlocks.bind {α β : Type} {r : Result α} {f : α → State → Result β}
    (hr : r.NeverBlocks) (hf : ∀ x s, (f x s).NeverBlocks) : (r.bind f).NeverBlocks := by
  cases r with
  | ok x s => exact hf x s
  | raise c s => intro d i o h; cases h
  | blocked d i o => exact absurd rfl (hr d i o)

/-! ### Words (spec/00_scope.md R6, R7) -/

theorem wrap64_add (x y : Word) : wrap64 (x.toInt + y.toInt) = x + y := by
  unfold wrap64; rw [BitVec.ofInt_add, BitVec.ofInt_toInt, BitVec.ofInt_toInt]

theorem wrap64_mul (x y : Word) : wrap64 (x.toInt * y.toInt) = x * y := by
  unfold wrap64; rw [BitVec.ofInt_mul, BitVec.ofInt_toInt, BitVec.ofInt_toInt]

/-- An address that is not negative lies below 2^63. -/
theorem toNat_lt_of_nonneg {a : Word} (h : 0 ≤ a.toInt) : a.toNat < 2 ^ 63 := by
  have := BitVec.toInt_eq_toNat_cond a
  have := a.isLt
  split at * <;> omega

theorem narrow_fits {z : Int} {s : State} (h : s.config.ovfTraps = true → fitsWord z = true) :
    narrow z s = .ok (wrap64 z) s := by
  unfold narrow
  cases ho : s.config.ovfTraps with
  | false => rfl
  | true => simp [h ho]

theorem narrow_overflows {z : Int} {s : State} (ht : s.config.ovfTraps = true) (h : fitsWord z = false) :
    narrow z s = .raise ⟨.arithOverflow, none, none⟩ s := by simp [narrow, ht, h]

theorem add64_of_sumOk {s : State} {x y : Word} (h : SumOk s x y) : add64 x y s = .ok (x + y) s := by
  rw [add64, narrow_fits h, wrap64_add]

theorem mul64_of_productOk {s : State} {x y : Word} (h : ProductOk s x y) : mul64 x y s = .ok (x * y) s := by
  rw [mul64, narrow_fits h, wrap64_mul]

/-- Everything the checked sum can answer. -/
theorem add64_cases (x y : Word) (s : State) :
    (SumOk s x y ∧ add64 x y s = .ok (x + y) s) ∨
      (¬ SumOk s x y ∧ add64 x y s = .raise ⟨.arithOverflow, none, none⟩ s) := by
  by_cases h : SumOk s x y
  · exact .inl ⟨h, add64_of_sumOk h⟩
  · refine .inr ⟨h, ?_⟩
    unfold SumOk at h
    push Not at h
    exact narrow_overflows h.1 (by simpa using h.2)

/-- Everything the checked product can answer. -/
theorem mul64_cases (x y : Word) (s : State) :
    (ProductOk s x y ∧ mul64 x y s = .ok (x * y) s) ∨
      (¬ ProductOk s x y ∧ mul64 x y s = .raise ⟨.arithOverflow, none, none⟩ s) := by
  by_cases h : ProductOk s x y
  · exact .inl ⟨h, mul64_of_productOk h⟩
  · refine .inr ⟨h, ?_⟩
    unfold ProductOk at h
    push Not at h
    exact narrow_overflows h.1 (by simpa using h.2)

/-! ### Growth (spec/20_memory.md R34) -/

theorem grow_eq (s : State) (a : Nat) : grow s a = s.setMemLen (max s.memLen (a + 1)) := by
  unfold grow
  split
  · rw [Nat.max_eq_right (by omega)]
  · rw [Nat.max_eq_left (by omega)]; rfl

/-- `s` after the cells `as` have been touched. -/
def grownBy (s : State) (as : List Word) : State := s.setMemLen (memLenAfter s.memLen as)

@[simp] theorem memLenAfter_nil (n : Nat) : memLenAfter n [] = n := rfl
@[simp] theorem memLenAfter_cons (n : Nat) (a : Word) (as : List Word) :
    memLenAfter n (a :: as) = memLenAfter (max n (a.toNat + 1)) as := rfl

theorem memLenAfter_append (n : Nat) (as bs : List Word) :
    memLenAfter n (as ++ bs) = memLenAfter (memLenAfter n as) bs := List.foldl_append ..

theorem le_memLenAfter (n : Nat) (as : List Word) : n ≤ memLenAfter n as := by
  induction as generalizing n with
  | nil => exact Nat.le_refl n
  | cons a as ih => exact Nat.le_trans (Nat.le_max_left ..) (ih _)

@[simp] theorem grownBy_grownBy (s : State) (as bs : List Word) :
    grownBy (grownBy s as) bs = grownBy s (as ++ bs) := by
  simp [grownBy, memLenAfter_append, State.setMemLen]

theorem grownBy_nil (s : State) : grownBy s [] = s := rfl

theorem grow_eq_grownBy (s : State) (a : Word) : grow s a.toNat = grownBy s [a] := grow_eq s a.toNat

/-! ### The memory primitives (spec/20_memory.md R32, R33) -/

theorem memRead_of_accessOk {s : State} {a : Word} (h : AccessOk s a) :
    memRead a s = .ok (s.mem.read a.toNat) (grownBy s [a]) := by
  unfold memRead
  rw [if_neg (by have := h.1; omega), if_pos h.2, grow_eq_grownBy]

theorem memWrite_of_accessOk {s : State} {a : Word} (h : AccessOk s a) (v : Word) :
    memWrite a v s = .ok (if s.memLen ≤ a.toNat then none else some (s.mem.read a.toNat))
      ((grownBy s [a]).setMem (s.mem.write a.toNat v)) := by
  unfold memWrite
  rw [if_neg (by have := h.1; omega), if_pos h.2, grow_eq_grownBy]

/-- Why an access to `a` fails, if it does: the kind of the fault. -/
theorem accessOk_cases (s : State) (a : Word) :
    AccessOk s a ∨ a.toInt < 0 ∨ (0 ≤ a.toInt ∧ belowCap s.config a.toNat = false) := by
  unfold AccessOk
  rcases Int.lt_or_le a.toInt 0 with h | h
  · exact .inr (.inl h)
  · cases hb : belowCap s.config a.toNat <;> simp [h]

theorem memRead_negative {s : State} {a : Word} (h : a.toInt < 0) :
    memRead a s = .raise ⟨.addressError, some a, none⟩ s := if_pos h

theorem memRead_aboveCap {s : State} {a : Word} (h : 0 ≤ a.toInt) (hc : belowCap s.config a.toNat = false) :
    memRead a s = .raise ⟨.capacityError, some a, none⟩ s := by
  unfold memRead
  rw [if_neg (by omega), if_neg (by simp [hc])]

theorem memWrite_negative {s : State} {a : Word} (v : Word) (h : a.toInt < 0) :
    memWrite a v s = .raise ⟨.addressError, some a, none⟩ s := if_pos h

theorem memWrite_aboveCap {s : State} {a : Word} (v : Word) (h : 0 ≤ a.toInt)
    (hc : belowCap s.config a.toNat = false) :
    memWrite a v s = .raise ⟨.capacityError, some a, none⟩ s := by
  unfold memWrite
  rw [if_neg (by omega), if_neg (by simp [hc])]

/-- Everything a read can answer. -/
theorem memRead_cases (a : Word) (s : State) :
    (AccessOk s a ∧ memRead a s = .ok (s.mem.read a.toNat) (grownBy s [a])) ∨
      ∃ k, memRead a s = .raise ⟨k, some a, none⟩ s ∧ (k = .addressError ∨ k = .capacityError) := by
  rcases accessOk_cases s a with h | h | ⟨h, hc⟩
  · exact .inl ⟨h, memRead_of_accessOk h⟩
  · exact .inr ⟨_, memRead_negative h, .inl rfl⟩
  · exact .inr ⟨_, memRead_aboveCap h hc, .inr rfl⟩

/-- Everything a write can answer. -/
theorem memWrite_cases (a v : Word) (s : State) :
    (AccessOk s a ∧ memWrite a v s =
        .ok (if s.memLen ≤ a.toNat then none else some (s.mem.read a.toNat))
          ((grownBy s [a]).setMem (s.mem.write a.toNat v))) ∨
      ∃ k, memWrite a v s = .raise ⟨k, some a, none⟩ s ∧ (k = .addressError ∨ k = .capacityError) := by
  rcases accessOk_cases s a with h | h | ⟨h, hc⟩
  · exact .inl ⟨h, memWrite_of_accessOk h v⟩
  · exact .inr ⟨_, memWrite_negative v h, .inl rfl⟩
  · exact .inr ⟨_, memWrite_aboveCap v h hc, .inr rfl⟩

/-! ### Operands (spec/40_step_engine.md R74 to R76) -/

theorem fetchOperand_of_fetchOk {s : State} {k : Nat} (h : FetchOk s k) :
    fetchOperand k s = .ok (rawOperand s k) (grownBy s [operandCell s k]) := by
  rw [fetchOperand, add64_of_sumOk h.1, Result.bind_ok]
  exact memRead_of_accessOk h.2

/-- A source operand that is good gives its value and touches its cells. -/
theorem source_of_sourceOk {s : State} {k : Nat} {m : Mode} (h : SourceOk s k m) :
    source k m s = .ok (sourceValue s k m) (grownBy s (sourceCells s k m)) := by
  obtain ⟨hf, hm⟩ := h
  rw [source, fetchOperand_of_fetchOk hf, Result.bind_ok]
  cases m with
  | pointer =>
    have hm : AccessOk (grownBy s [operandCell s k]) (rawOperand s k) := hm
    exact (memRead_of_accessOk hm).trans (by rw [grownBy_grownBy]; rfl)
  | value => rfl
  | relative =>
    have hs : SumOk (grownBy s [operandCell s k]) (rawOperand s k) s.rb := hm.1
    have ha : AccessOk (grownBy s [operandCell s k]) (rawOperand s k + s.rb) := hm.2
    refine Eq.trans (congrArg (Result.bind · memRead) (add64_of_sumOk hs)) ?_
    exact (memRead_of_accessOk ha).trans (by rw [grownBy_grownBy]; rfl)

/-- A target operand that resolves gives its address and touches its cell. -/
theorem destination_of_targetResolves {s : State} {k : Nat} {m : Mode} {a : Word} (h : TargetResolves s k m a) :
    destination k m s = .ok a (grownBy s [operandCell s k]) := by
  obtain ⟨hf, ha, hs⟩ := h
  rw [destination, fetchOperand_of_fetchOk hf, Result.bind_ok]
  cases m with
  | pointer => rw [← Option.some.inj ha]; rfl
  | value => cases ha
  | relative =>
    rw [← Option.some.inj ha]
    have hs : SumOk (grownBy s [operandCell s k]) (rawOperand s k) s.rb := hs rfl
    exact add64_of_sumOk hs

/-- A target operand in Value mode whose cell can be fetched raises WriteModeError (R60). -/
theorem destination_of_value {s : State} {k : Nat} (h : FetchOk s k) :
    destination k .value s = .raise ⟨.writeModeError, none, none⟩ (grownBy s [operandCell s k]) := by
  rw [destination, fetchOperand_of_fetchOk h]; rfl

theorem memRead_of_fails {s : State} {a : Word} {k : FaultKind} (h : AccessFails s a k) :
    memRead a s = .raise ⟨k, some a, none⟩ s := by
  rcases h with ⟨h, rfl⟩ | ⟨h, hc, rfl⟩
  · exact memRead_negative h
  · exact memRead_aboveCap h hc

theorem memWrite_of_fails {s : State} {a : Word} {k : FaultKind} (v : Word) (h : AccessFails s a k) :
    memWrite a v s = .raise ⟨k, some a, none⟩ s := by
  rcases h with ⟨h, rfl⟩ | ⟨h, hc, rfl⟩
  · exact memWrite_negative v h
  · exact memWrite_aboveCap v h hc

/-- A source operand that fails raises its fault at its address, after the cells read so far. -/
theorem source_of_sourceFails {s : State} {k : Nat} {m : Mode} {bad : Word} {kind : FaultKind} {cells : List Word}
    (h : SourceFails s k m bad kind cells) :
    source k m s = .raise ⟨kind, some bad, none⟩ (grownBy s cells) := by
  rcases h with ⟨hs, rfl, rfl, hf⟩ | ⟨⟨hfetch, ha, hs⟩, rfl, hf⟩
  · rw [source, fetchOperand, add64_of_sumOk hs, Result.bind_ok]
    exact congrArg (Result.bind · (resolveValue m)) (memRead_of_fails hf)
  · rw [source, fetchOperand_of_fetchOk hfetch, Result.bind_ok]
    cases m with
    | pointer =>
      rw [← Option.some.inj ha] at hf ⊢
      have hf : AccessFails (grownBy s [operandCell s k]) (rawOperand s k) kind := hf
      exact memRead_of_fails hf
    | value => cases ha
    | relative =>
      rw [← Option.some.inj ha] at hf ⊢
      have hs : SumOk (grownBy s [operandCell s k]) (rawOperand s k) s.rb := hs rfl
      have hf : AccessFails (grownBy s [operandCell s k]) (rawOperand s k + s.rb) kind := hf
      exact (congrArg (Result.bind · memRead) (add64_of_sumOk hs)).trans (memRead_of_fails hf)

/-- A target operand answers an address only when it resolves to it. -/
theorem destination_eq_ok {s t : State} {k : Nat} {m : Mode} {a : Word} (h : destination k m s = .ok a t) :
    TargetResolves s k m a ∧ t = grownBy s [operandCell s k] := by
  obtain ⟨p, u, hp, hr⟩ := Result.bind_eq_ok h
  obtain ⟨b, u', hb, hm⟩ := Result.bind_eq_ok hp
  rcases add64_cases s.pc (BitVec.ofNat 64 k) s with ⟨hs, e⟩ | ⟨_, e⟩
  · rw [e] at hb; cases hb
    rcases memRead_cases (s.pc + BitVec.ofNat 64 k) s with ⟨ha, e⟩ | ⟨_, e, _⟩
    · rw [e] at hm; cases hm
      cases m with
      | pointer => cases hr; exact ⟨⟨⟨hs, ha⟩, rfl, fun h => by cases h⟩, rfl⟩
      | value => cases hr
      | relative =>
        have hr : add64 (rawOperand s k) s.rb (grownBy s [operandCell s k]) = .ok a t := hr
        rcases add64_cases (rawOperand s k) s.rb (grownBy s [operandCell s k]) with ⟨hs', e⟩ | ⟨_, e⟩
        · rw [e] at hr; cases hr; exact ⟨⟨⟨hs, ha⟩, rfl, fun _ => hs'⟩, rfl⟩
        · rw [e] at hr; cases hr
    · rw [e] at hm; cases hm
  · rw [e] at hb; cases hb

/-- A source operand answers only the value the spec gives it, and only when it is good. -/
theorem source_eq_ok {s t : State} {k : Nat} {m : Mode} {x : Word} (h : source k m s = .ok x t) :
    SourceOk s k m ∧ x = sourceValue s k m ∧ t = grownBy s (sourceCells s k m) := by
  suffices hk : SourceOk s k m by
    rw [source_of_sourceOk hk] at h
    cases h
    exact ⟨hk, rfl, rfl⟩
  obtain ⟨p, u, hp, hr⟩ := Result.bind_eq_ok h
  obtain ⟨b, u', hb, hm⟩ := Result.bind_eq_ok hp
  rcases add64_cases s.pc (BitVec.ofNat 64 k) s with ⟨hs, e⟩ | ⟨_, e⟩
  · rw [e] at hb; cases hb
    rcases memRead_cases (s.pc + BitVec.ofNat 64 k) s with ⟨ha, e⟩ | ⟨_, e, _⟩
    · rw [e] at hm; cases hm
      cases m with
      | pointer =>
        have hr : memRead (rawOperand s k) (grownBy s [operandCell s k]) = .ok x t := hr
        rcases memRead_cases (rawOperand s k) (grownBy s [operandCell s k]) with ⟨hb, _⟩ | ⟨_, e, _⟩
        · exact ⟨⟨hs, ha⟩, hb⟩
        · rw [e] at hr; cases hr
      | value => exact ⟨⟨hs, ha⟩, trivial⟩
      | relative =>
        have hr : (add64 (rawOperand s k) s.rb (grownBy s [operandCell s k])).bind memRead = .ok x t := hr
        rcases add64_cases (rawOperand s k) s.rb (grownBy s [operandCell s k]) with ⟨hs', e⟩ | ⟨_, e⟩
        · rw [e, Result.bind_ok] at hr
          rcases memRead_cases (rawOperand s k + s.rb) (grownBy s [operandCell s k]) with ⟨hb, _⟩ | ⟨_, e, _⟩
          · exact ⟨⟨hs, ha⟩, hs', hb⟩
          · rw [e] at hr; cases hr
        · rw [e] at hr; cases hr
    · rw [e] at hm; cases hm
  · rw [e] at hb; cases hb

/-! Nothing an operand depends on changes with growth or the trace. -/

theorem source_good_grownBy {s : State} {as : List Word} {k : Nat} {m : Mode} :
    SourceOk (grownBy s as) k m ↔ SourceOk s k m := by cases m <;> exact Iff.rfl

theorem target_resolves_grownBy {s : State} {as : List Word} {k : Nat} {m : Mode} {a : Word} :
    TargetResolves (grownBy s as) k m a ↔ TargetResolves s k m a := by cases m <;> exact Iff.rfl

@[simp] theorem sourceValue_grownBy (s : State) (as : List Word) (k : Nat) (m : Mode) :
    sourceValue (grownBy s as) k m = sourceValue s k m := by cases m <;> rfl

@[simp] theorem sourceCells_grownBy (s : State) (as : List Word) (k : Nat) (m : Mode) :
    sourceCells (grownBy s as) k m = sourceCells s k m := by cases m <;> rfl

theorem source_good_addTrace {s : State} {b v : Word} {k : Nat} {m : Mode} :
    SourceOk (addTrace b v s) k m ↔ SourceOk s k m := by cases m <;> exact Iff.rfl

theorem target_resolves_addTrace {s : State} {b v : Word} {k : Nat} {m : Mode} {a : Word} :
    TargetResolves (addTrace b v s) k m a ↔ TargetResolves s k m a := by cases m <;> exact Iff.rfl

@[simp] theorem sourceValue_addTrace (s : State) (b v : Word) (k : Nat) (m : Mode) :
    sourceValue (addTrace b v s) k m = sourceValue s k m := by cases m <;> rfl

@[simp] theorem sourceCells_addTrace (s : State) (b v : Word) (k : Nat) (m : Mode) :
    sourceCells (addTrace b v s) k m = sourceCells s k m := by cases m <;> rfl

@[simp] theorem operandCell_grownBy (s : State) (as : List Word) (k : Nat) :
    operandCell (grownBy s as) k = operandCell s k := rfl

@[simp] theorem operandCell_addTrace (s : State) (b v : Word) (k : Nat) :
    operandCell (addTrace b v s) k = operandCell s k := rfl

@[simp] theorem grownBy_mem (s : State) (as : List Word) : (grownBy s as).mem = s.mem := rfl
@[simp] theorem grownBy_rb (s : State) (as : List Word) : (grownBy s as).rb = s.rb := rfl
@[simp] theorem grownBy_pc (s : State) (as : List Word) : (grownBy s as).pc = s.pc := rfl
@[simp] theorem grownBy_config (s : State) (as : List Word) : (grownBy s as).config = s.config := rfl
@[simp] theorem grownBy_trace (s : State) (as : List Word) : (grownBy s as).trace = s.trace := rfl
@[simp] theorem grownBy_memLen (s : State) (as : List Word) :
    (grownBy s as).memLen = memLenAfter s.memLen as := rfl

/-! ### What reading can change: `mem_len`, and nothing else -/

/-- `t` is `s` with `mem_len` grown to `n`. -/
def GrownFrom (s t : State) : Prop := ∃ n, s.memLen ≤ n ∧ t = s.setMemLen n

theorem GrownFrom.refl (s : State) : GrownFrom s s := ⟨s.memLen, Nat.le_refl _, rfl⟩

theorem GrownFrom.trans {s t u : State} (h : GrownFrom s t) (h' : GrownFrom t u) : GrownFrom s u := by
  obtain ⟨n, hn, rfl⟩ := h
  obtain ⟨n', hn', rfl⟩ := h'
  exact ⟨n', Nat.le_trans hn hn', rfl⟩

theorem memRead_grows (a : Word) (s : State) : (memRead a s).All (GrownFrom s) := by
  rcases memRead_cases a s with ⟨_, h⟩ | ⟨k, h, _⟩ <;> rw [h]
  · exact ⟨_, le_memLenAfter ..,rfl⟩
  · exact GrownFrom.refl s

theorem add64_grows (x y : Word) (s : State) : (add64 x y s).All (GrownFrom s) := by
  rcases add64_cases x y s with ⟨_, h⟩ | ⟨_, h⟩ <;> rw [h] <;> exact GrownFrom.refl s

theorem mul64_grows (x y : Word) (s : State) : (mul64 x y s).All (GrownFrom s) := by
  rcases mul64_cases x y s with ⟨_, h⟩ | ⟨_, h⟩ <;> rw [h] <;> exact GrownFrom.refl s

theorem fetchOperand_grows (k : Nat) (s : State) : (fetchOperand k s).All (GrownFrom s) :=
  (add64_grows ..).bind (fun _ h => h) fun a u hu => (memRead_grows a u).mono fun _ => hu.trans

theorem resolveValue_grows (m : Mode) (p : Word) (s : State) : (resolveValue m p s).All (GrownFrom s) := by
  cases m with
  | pointer => exact memRead_grows p s
  | value => exact GrownFrom.refl s
  | relative => exact (add64_grows ..).bind (fun _ h => h) fun a u hu => (memRead_grows a u).mono fun _ => hu.trans

theorem resolveTarget_grows (m : Mode) (p : Word) (s : State) : (resolveTarget m p s).All (GrownFrom s) := by
  cases m with
  | pointer => exact GrownFrom.refl s
  | value => exact GrownFrom.refl s
  | relative => exact add64_grows ..

theorem source_grows (k : Nat) (m : Mode) (s : State) : (source k m s).All (GrownFrom s) :=
  (fetchOperand_grows k s).bind (fun _ h => h) fun p u hu => (resolveValue_grows m p u).mono fun _ => hu.trans

theorem destination_grows (k : Nat) (m : Mode) (s : State) : (destination k m s).All (GrownFrom s) :=
  (fetchOperand_grows k s).bind (fun _ h => h) fun p u hu => (resolveTarget_grows m p u).mono fun _ => hu.trans

/-! ### Nothing but a port waits -/

theorem memRead_neverBlocks (a : Word) (s : State) : (memRead a s).NeverBlocks := by
  rcases memRead_cases a s with ⟨_, h⟩ | ⟨k, h, _⟩ <;> rw [h] <;> intro d i o e <;> cases e

theorem memWrite_neverBlocks (a v : Word) (s : State) : (memWrite a v s).NeverBlocks := by
  rcases memWrite_cases a v s with ⟨_, h⟩ | ⟨k, h, _⟩ <;> rw [h] <;> intro d i o e <;> cases e

theorem add64_neverBlocks (x y : Word) (s : State) : (add64 x y s).NeverBlocks := by
  rcases add64_cases x y s with ⟨_, h⟩ | ⟨_, h⟩ <;> rw [h] <;> intro d i o e <;> cases e

theorem fetchOperand_neverBlocks (k : Nat) (s : State) : (fetchOperand k s).NeverBlocks :=
  (add64_neverBlocks _ _ _).bind memRead_neverBlocks

theorem source_neverBlocks (k : Nat) (m : Mode) (s : State) : (source k m s).NeverBlocks := by
  refine (fetchOperand_neverBlocks k s).bind fun p u => ?_
  cases m with
  | pointer => exact memRead_neverBlocks p u
  | value => intro d i o h; cases h
  | relative => exact (add64_neverBlocks _ _ _).bind memRead_neverBlocks

theorem destination_neverBlocks (k : Nat) (m : Mode) (s : State) : (destination k m s).NeverBlocks := by
  refine (fetchOperand_neverBlocks k s).bind fun p u => ?_
  cases m with
  | pointer => intro d i o h; cases h
  | value => intro d i o h; cases h
  | relative => exact add64_neverBlocks _ _ _

theorem advance_neverBlocks (n : Nat) (s : State) : (advance n s).NeverBlocks :=
  (add64_neverBlocks _ _ _).bind fun _ _ d i o h => by cases h

/-! ### The `pc` update (spec/40_step_engine.md R78) -/

theorem advance_of_sumOk {n : Nat} {s : State} (h : SumOk s s.pc (BitVec.ofNat 64 n)) :
    advance n s = .ok () (s.setPc (s.pc + BitVec.ofNat 64 n)) := by
  rw [advance, add64_of_sumOk h]; rfl

/-- The advance writes `pc` or, on an overflow that traps, nothing. -/
theorem advance_cases (n : Nat) (s : State) :
    (SumOk s s.pc (BitVec.ofNat 64 n) ∧ advance n s = .ok () (s.setPc (s.pc + BitVec.ofNat 64 n))) ∨
      (¬ SumOk s s.pc (BitVec.ofNat 64 n) ∧ advance n s = .raise ⟨.arithOverflow, none, none⟩ s) := by
  rcases add64_cases s.pc (BitVec.ofNat 64 n) s with ⟨h, e⟩ | ⟨h, e⟩
  · exact .inl ⟨h, by rw [advance, e]; rfl⟩
  · exact .inr ⟨h, by rw [advance, e]; rfl⟩

/-- A sum that overflows under OVF_TRAPS. -/
theorem add64_of_overflow {s : State} {x y : Word} (h : ¬ SumOk s x y) :
    add64 x y s = .raise ⟨.arithOverflow, none, none⟩ s :=
  (add64_cases x y s).elim (fun h' => absurd h'.1 h) fun h' => h'.2

/-- An operand cell whose address overflows, or that cannot be fetched, ends source and target resolution alike. -/
theorem fetchOperand_of_overflow {s : State} {k : Nat} (h : ¬ SumOk s s.pc (BitVec.ofNat 64 k)) :
    fetchOperand k s = .raise ⟨.arithOverflow, none, none⟩ s := by rw [fetchOperand, add64_of_overflow h]; rfl

theorem fetchOperand_of_cellFails {s : State} {k : Nat} {bad : Word} {kind : FaultKind} (h : CellFails s k bad kind) :
    fetchOperand k s = .raise ⟨kind, some bad, none⟩ s := by
  obtain ⟨h1, rfl, h2⟩ := h
  rw [fetchOperand, add64_of_sumOk h1, Result.bind_ok]
  exact memRead_of_fails h2

theorem source_of_overflow {s : State} {k : Nat} {m : Mode} {cells : List Word} (h : OperandOverflows s k m cells) :
    source k m s = .raise ⟨.arithOverflow, none, none⟩ (grownBy s cells) := by
  rcases h with ⟨h, rfl⟩ | ⟨h, rfl, h', rfl⟩
  · rw [source, fetchOperand_of_overflow h]; rfl
  · rw [source, fetchOperand_of_fetchOk h, Result.bind_ok, resolveValue, grownBy_rb,
      add64_of_overflow (s := grownBy s _) h']
    rfl

theorem destination_of_overflow {s : State} {k : Nat} {m : Mode} {cells : List Word} (h : OperandOverflows s k m cells) :
    destination k m s = .raise ⟨.arithOverflow, none, none⟩ (grownBy s cells) := by
  rcases h with ⟨h, rfl⟩ | ⟨h, rfl, h', rfl⟩
  · rw [destination, fetchOperand_of_overflow h]; rfl
  · rw [destination, fetchOperand_of_fetchOk h, Result.bind_ok, resolveTarget, grownBy_rb,
      add64_of_overflow (s := grownBy s _) h']

/-- An advance whose trap takes back what was done since `t`. -/
theorem advance_undoTo_cases (n : Nat) (s t : State) :
    (SumOk s s.pc (BitVec.ofNat 64 n) ∧ (advance n s).undoTo t = .ok () (s.setPc (s.pc + BitVec.ofNat 64 n))) ∨
      (¬ SumOk s s.pc (BitVec.ofNat 64 n) ∧ (advance n s).undoTo t = .raise ⟨.arithOverflow, none, none⟩ t) := by
  rcases advance_cases n s with ⟨h, e⟩ | ⟨h, e⟩
  · exact .inl ⟨h, by rw [e]; rfl⟩
  · exact .inr ⟨h, by rw [e]; rfl⟩

/-! ### The ports (spec/43_io.md R95, R96) -/

theorem inRead_of_value {s : State} {x : Word} {p : InPort} (h : pollIn s.inPort = (.value x, p)) :
    inRead s = .ok x (s.setInPort p) := by simp only [inRead, h]

theorem inRead_of_error {s : State} {k : IoKind} {p : InPort} (h : pollIn s.inPort = (.error k, p)) :
    inRead s = .raise ⟨.ioError, none, some (.input, k)⟩ (s.setInPort p) := by simp only [inRead, h]

theorem inRead_of_notReady {s : State} {p : InPort} (h : pollIn s.inPort = (.notReady, p)) :
    inRead s = .blocked .input p s.outPort := by simp only [inRead, h]

theorem outWrite_of_accepted {s : State} {p : OutPort} (x : Word) (h : pollOut s.outPort = (.accepted, p)) :
    outWrite x s = .ok () ((s.setOutPort p).setOutput (s.output ++ [x])) := by simp only [outWrite, h]

theorem outWrite_of_error {s : State} {k : OutError} {p : OutPort} (x : Word)
    (h : pollOut s.outPort = (.error k, p)) :
    outWrite x s = .raise ⟨.ioError, none, some (.output, outErrorKind k)⟩ (s.setOutPort p) := by
  simp only [outWrite, h]

theorem outWrite_of_notReady {s : State} {p : OutPort} (x : Word) (h : pollOut s.outPort = (.notReady, p)) :
    outWrite x s = .blocked .output s.inPort p := by simp only [outWrite, h]

/-- Everything an input read can answer. -/
theorem inRead_cases (s : State) :
    (∃ x p, pollIn s.inPort = (.value x, p) ∧ inRead s = .ok x (s.setInPort p)) ∨
    (∃ k p, pollIn s.inPort = (.error k, p) ∧
      inRead s = .raise ⟨.ioError, none, some (.input, k)⟩ (s.setInPort p)) ∨
    (∃ p, pollIn s.inPort = (.notReady, p) ∧ inRead s = .blocked .input p s.outPort) := by
  rcases h : pollIn s.inPort with ⟨a, p⟩
  cases a with
  | value x => exact .inl ⟨x, p, rfl, inRead_of_value h⟩
  | error k => exact .inr (.inl ⟨k, p, rfl, inRead_of_error h⟩)
  | notReady => exact .inr (.inr ⟨p, rfl, inRead_of_notReady h⟩)

/-- Everything an output write can answer. -/
theorem outWrite_cases (x : Word) (s : State) :
    (∃ p, pollOut s.outPort = (.accepted, p) ∧
      outWrite x s = .ok () ((s.setOutPort p).setOutput (s.output ++ [x]))) ∨
    (∃ k p, pollOut s.outPort = (.error k, p) ∧
      outWrite x s = .raise ⟨.ioError, none, some (.output, outErrorKind k)⟩ (s.setOutPort p)) ∨
    (∃ p, pollOut s.outPort = (.notReady, p) ∧ outWrite x s = .blocked .output s.inPort p) := by
  rcases h : pollOut s.outPort with ⟨a, p⟩
  cases a with
  | accepted => exact .inl ⟨p, rfl, outWrite_of_accepted x h⟩
  | error k => exact .inr (.inl ⟨k, p, rfl, outWrite_of_error x h⟩)
  | notReady => exact .inr (.inr ⟨p, rfl, outWrite_of_notReady x h⟩)

end Sys2Proof.Machine
end

