-- ==== Sys2Proof/Laws/Step.lean ====
section
/-! SUPPORT. What the common path, the bodies of the instructions and a step can do, said once. -/

namespace Sys2Proof.Machine

/-- The state in which the operation of the instruction at `pc` begins: the opcode cell fetched, the trace entry made. -/
def begun (s : State) : State := addTrace s.pc (s.mem.read s.pc.toNat) (grownBy s [s.pc])

/-! ### The common path (spec/40_step_engine.md R70) -/

/-- The operation completes. -/
theorem runInstr_of_ok {s t : State} {body : State → Result Unit} (h : AccessOk s s.pc)
    (hb : body (begun s) = .ok () t) : runInstr body s = .next (t.setWaiting none) := by
  have hb : body (addTrace s.pc (s.mem.read s.pc.toNat) (grownBy s [s.pc])) = .ok () t := hb
  simp only [runInstr, memRead_of_accessOk h, hb]

/-- The operation raises. -/
theorem runInstr_of_raise {s t : State} {c : Cause} {body : State → Result Unit} (h : AccessOk s s.pc)
    (hb : body (begun s) = .raise c t) :
    runInstr body s = .next (enterFault (some (s.mem.read s.pc.toNat)) c t) := by
  have hb : body (addTrace s.pc (s.mem.read s.pc.toNat) (grownBy s [s.pc])) = .raise c t := hb
  simp only [runInstr, memRead_of_accessOk h, hb]

/-- The operation waits on a port. -/
theorem runInstr_of_blocked {s : State} {d : IoDir} {i : InPort} {o : OutPort} {body : State → Result Unit} (h : AccessOk s s.pc)
    (hb : body (begun s) = .blocked d i o) : runInstr body s = .next (waitOnPort d i o s) := by
  have hb : body (addTrace s.pc (s.mem.read s.pc.toNat) (grownBy s [s.pc])) = .blocked d i o := hb
  simp only [runInstr, memRead_of_accessOk h, hb]

/-- Everything the common path can answer. -/
theorem runInstr_cases {s t : State} {body : State → Result Unit} (h : runInstr body s = .next t) :
    (∃ k, ¬ AccessOk s s.pc ∧ t = enterFault none ⟨k, some s.pc, none⟩ s ∧
      (k = .addressError ∨ k = .capacityError)) ∨
    (AccessOk s s.pc ∧
      ((∃ u, body (begun s) = .ok () u ∧ t = u.setWaiting none) ∨
       (∃ c u, body (begun s) = .raise c u ∧ t = enterFault (some (s.mem.read s.pc.toNat)) c u) ∨
       (∃ d i o, body (begun s) = .blocked d i o ∧ t = waitOnPort d i o s))) := by
  rcases accessOk_cases s s.pc with ha | ha | ⟨ha, hc⟩
  · refine .inr ⟨ha, ?_⟩
    rcases hb : body (begun s) with ⟨x, u⟩ | ⟨c, u⟩ | ⟨d, i, o⟩
    · rw [runInstr_of_ok ha hb] at h; cases h; exact .inl ⟨u, rfl, rfl⟩
    · rw [runInstr_of_raise ha hb] at h; cases h; exact .inr (.inl ⟨c, u, rfl, rfl⟩)
    · rw [runInstr_of_blocked ha hb] at h; cases h; exact .inr (.inr ⟨d, i, o, rfl, rfl⟩)
  · simp only [runInstr, memRead_negative ha] at h
    cases h
    exact .inl ⟨_, fun hx => by have := hx.1; omega, rfl, .inl rfl⟩
  · simp only [runInstr, memRead_aboveCap ha hc] at h
    cases h
    exact .inl ⟨_, fun hx => by have := hx.2; simp [hc] at this, rfl, .inr rfl⟩

/-- An instruction always answers a next state. -/
theorem runInstr_answers (body : State → Result Unit) (s : State) : ∃ t, runInstr body s = .next t := by
  unfold runInstr
  cases memRead s.pc s with
  | raise c s1 => exact ⟨_, rfl⟩
  | blocked d i o => exact ⟨_, rfl⟩
  | ok v s1 =>
    cases h : body (addTrace s.pc v s1) with
    | ok x u => exact ⟨u.setWaiting none, by simp only [h]⟩
    | raise c u => exact ⟨enterFault (some v) c u, by simp only [h]⟩
    | blocked d i o => exact ⟨waitOnPort d i o s, by simp only [h]⟩

/-! Each instruction is the common path around its operation. -/

theorem exec_endOp (m1 m2 m3 : Mode) (s : State) :
    exec (.endOp m1 m2 m3) s = runInstr (fun s => .ok () (s.setStatus .halted)) s := rfl
theorem exec_add (m1 m2 m3 : Mode) (s : State) :
    exec (.add m1 m2 m3) s = runInstr (storeResult add64 m1 m2 m3) s := rfl
theorem exec_mul (m1 m2 m3 : Mode) (s : State) :
    exec (.mul m1 m2 m3) s = runInstr (storeResult mul64 m1 m2 m3) s := rfl
theorem exec_input (m1 m2 m3 : Mode) (s : State) :
    exec (.input m1 m2 m3) s = runInstr (inputBody m1) s := rfl
theorem exec_output (m1 m2 m3 : Mode) (s : State) :
    exec (.output m1 m2 m3) s = runInstr (outputBody m1) s := rfl
theorem exec_jumpIfNotZero (m1 m2 m3 : Mode) (s : State) :
    exec (.jumpIfNotZero m1 m2 m3) s = runInstr (jumpWhen isNonZero m1 m2) s := rfl
theorem exec_jumpIfZero (m1 m2 m3 : Mode) (s : State) :
    exec (.jumpIfZero m1 m2 m3) s = runInstr (jumpWhen isZero m1 m2) s := rfl
theorem exec_lessThan (m1 m2 m3 : Mode) (s : State) :
    exec (.lessThan m1 m2 m3) s = runInstr (storeResult (fun x y s => .ok (lessThanCell x y) s) m1 m2 m3) s := rfl
theorem exec_equalTo (m1 m2 m3 : Mode) (s : State) :
    exec (.equalTo m1 m2 m3) s = runInstr (storeResult (fun x y s => .ok (equalCell x y) s) m1 m2 m3) s := rfl
theorem exec_adjustRelativeBase (m1 m2 m3 : Mode) (s : State) :
    exec (.adjustRelativeBase m1 m2 m3) s = runInstr (adjustBody m1) s := rfl

/-- The operation of an instruction, without the common path around it. -/
def bodyOf : Instr → State → Result Unit
  | .endOp _ _ _ => fun s => .ok () (s.setStatus .halted)
  | .add m1 m2 m3 => storeResult add64 m1 m2 m3
  | .mul m1 m2 m3 => storeResult mul64 m1 m2 m3
  | .input m1 _ _ => inputBody m1
  | .output m1 _ _ => outputBody m1
  | .jumpIfNotZero m1 m2 _ => jumpWhen isNonZero m1 m2
  | .jumpIfZero m1 m2 _ => jumpWhen isZero m1 m2
  | .lessThan m1 m2 m3 => storeResult (fun x y s => .ok (lessThanCell x y) s) m1 m2 m3
  | .equalTo m1 m2 m3 => storeResult (fun x y s => .ok (equalCell x y) s) m1 m2 m3
  | .adjustRelativeBase m1 _ _ => adjustBody m1

theorem exec_eq_runInstr (i : Instr) (s : State) : exec i s = runInstr (bodyOf i) s := by cases i <;> rfl

theorem exec_answers (i : Instr) (s : State) : ∃ t, exec i s = .next t := by
  rw [exec_eq_runInstr]
  exact runInstr_answers _ _

/-! ### Operands at the beginning of an operation -/

theorem begun_eq (s : State) :
    begun s = grownBy (s.setTrace (s.trace ++ [(s.pc, s.mem.read s.pc.toNat)])) [s.pc] := rfl

@[simp] theorem begun_pc (s : State) : (begun s).pc = s.pc := rfl
@[simp] theorem begun_rb (s : State) : (begun s).rb = s.rb := rfl
@[simp] theorem begun_mem (s : State) : (begun s).mem = s.mem := rfl
@[simp] theorem begun_config (s : State) : (begun s).config = s.config := rfl
@[simp] theorem begun_inPort (s : State) : (begun s).inPort = s.inPort := rfl
@[simp] theorem begun_outPort (s : State) : (begun s).outPort = s.outPort := rfl
@[simp] theorem begun_output (s : State) : (begun s).output = s.output := rfl
@[simp] theorem begun_memLen (s : State) : (begun s).memLen = memLenAfter s.memLen [s.pc] := rfl

theorem source_good_begun {s : State} {k : Nat} {m : Mode} : SourceOk (begun s) k m ↔ SourceOk s k m := by
  cases m <;> exact Iff.rfl

theorem target_resolves_begun {s : State} {k : Nat} {m : Mode} {a : Word} :
    TargetResolves (begun s) k m a ↔ TargetResolves s k m a := by cases m <;> exact Iff.rfl

@[simp] theorem sourceValue_begun (s : State) (k : Nat) (m : Mode) :
    sourceValue (begun s) k m = sourceValue s k m := by cases m <;> rfl

@[simp] theorem sourceCells_begun (s : State) (k : Nat) (m : Mode) :
    sourceCells (begun s) k m = sourceCells s k m := by cases m <;> rfl

@[simp] theorem operandCell_begun (s : State) (k : Nat) : operandCell (begun s) k = operandCell s k := rfl

/-! ### Fetch and decode -/

/-- Everything the fetch and the decoder can answer. -/
theorem fetchDecode_cases (s : State) :
    (∃ k, ¬ AccessOk s s.pc ∧ AccessFails s s.pc k ∧
      fetchDecode s = .error (enterFault none ⟨k, some s.pc, none⟩ s)) ∨
    (AccessOk s s.pc ∧ ∃ e, decode (s.mem.read s.pc.toNat) = .error e ∧
      fetchDecode s = .error (enterFault (some (s.mem.read s.pc.toNat)) (decodeCause e) (grownBy s [s.pc]))) ∨
    (AccessOk s s.pc ∧ ∃ i, decode (s.mem.read s.pc.toNat) = .ok i ∧ fetchDecode s = .ok i) := by
  rcases accessOk_cases s s.pc with ha | ha | ⟨ha, hc⟩
  · cases hd : decode (s.mem.read s.pc.toNat) with
    | error e => exact .inr (.inl ⟨ha, e, rfl, by simp only [fetchDecode, memRead_of_accessOk ha, hd]⟩)
    | ok i => exact .inr (.inr ⟨ha, i, rfl, by simp only [fetchDecode, memRead_of_accessOk ha, hd]⟩)
  · exact .inl ⟨_, fun hx => by have := hx.1; omega, .inl ⟨ha, rfl⟩, by
      simp only [fetchDecode, memRead_negative ha]⟩
  · exact .inl ⟨_, fun hx => by have := hx.2; simp [hc] at this, .inr ⟨ha, hc, rfl⟩, by
      simp only [fetchDecode, memRead_aboveCap ha hc]⟩

/-! ### One step -/

/-- Where no step waits, one is enabled. -/
theorem portAnswers_of_none {s : State} (h : s.waiting = none) : portAnswers s = true := by
  rw [portAnswers, h]

/-- Asking the port again changes the port alone. -/
theorem pollAgain_eq (s : State) : ∃ i o, pollAgain s = (s.setInPort i).setOutPort o := by
  unfold pollAgain
  split
  · exact ⟨s.inPort, s.outPort, rfl⟩
  · exact ⟨(pollIn s.inPort).2, s.outPort, rfl⟩
  · exact ⟨s.inPort, (pollOut s.outPort).2, rfl⟩

/-- An admitted and enabled step is the fetch and decode, then the instruction. -/
theorem step_of_admitted {s : State} (h : s.status = .ready ∨ s.status = .running) (hp : portAnswers s = true) :
    step s = match fetchDecode s with
      | .ok i => exec i s
      | .error s' => .next s' := by
  unfold step
  cases fetchDecode s <;> rcases h with h | h <;> simp only [h, hp, if_true]

/-- An admitted step that still waits on its port asks it once more. -/
theorem step_of_waiting {s : State} (h : s.status = .ready ∨ s.status = .running) (hp : portAnswers s = false) :
    step s = .next (pollAgain s) := by
  unfold step
  rcases h with h | h <;> simp [h, hp]

/-- A step that answers a next state was admitted. -/
theorem admitted_of_step {s t : State} (h : step s = .next t) : s.status = .ready ∨ s.status = .running := by
  unfold step at h
  cases hs : s.status <;> rw [hs] at h <;> first | exact .inl rfl | exact .inr rfl | cases h

/-- An admitted step always answers a next state. -/
theorem step_answers {s : State} (h : s.status = .ready ∨ s.status = .running) : ∃ t, step s = .next t := by
  cases hp : portAnswers s with
  | false => exact ⟨_, step_of_waiting h hp⟩
  | true =>
    rw [step_of_admitted h hp]
    cases fetchDecode s with
    | error u => exact ⟨_, rfl⟩
    | ok i => exact exec_answers i s

/-- Everything a step can do when it answers a next state: wait on, take a fetch or a decode fault, or run the decoded
instruction. -/
theorem step_cases {s t : State} (h : step s = .next t) :
    (s.status = .ready ∨ s.status = .running) ∧
    ((portAnswers s = false ∧ t = pollAgain s) ∨
     (portAnswers s = true ∧
       ((∃ k, ¬ AccessOk s s.pc ∧ t = enterFault none ⟨k, some s.pc, none⟩ s) ∨
        (AccessOk s s.pc ∧ ∃ e, decode (s.mem.read s.pc.toNat) = .error e ∧
          t = enterFault (some (s.mem.read s.pc.toNat)) (decodeCause e) (grownBy s [s.pc])) ∨
        (AccessOk s s.pc ∧ ∃ i, decode (s.mem.read s.pc.toNat) = .ok i ∧ exec i s = .next t)))) := by
  have ha := admitted_of_step h
  refine ⟨ha, ?_⟩
  cases hp : portAnswers s with
  | false =>
    rw [step_of_waiting ha hp] at h
    cases h
    exact .inl ⟨rfl, rfl⟩
  | true =>
    refine .inr ⟨rfl, ?_⟩
    rw [step_of_admitted ha hp] at h
    rcases fetchDecode_cases s with ⟨k, hk, _, e⟩ | ⟨hk, er, hd, e⟩ | ⟨hk, i, hd, e⟩ <;> rw [e] at h
    · cases h; exact .inl ⟨k, hk, rfl⟩
    · cases h; exact .inr (.inl ⟨hk, er, hd, rfl⟩)
    · exact .inr (.inr ⟨hk, i, hd, h⟩)

end Sys2Proof.Machine
end

