-- ==== Sys2Proof/Laws/Shapes.lean ====
section
/-! SUPPORT. The operations of the instructions, shape by shape: what each completes with on good operands, and everything
it can do. -/

namespace Sys2Proof.Machine

/-! ### Conditions -/

theorem toInt_eq_zero {c : Word} : c.toInt = 0 ↔ c = 0 := by rw [← BitVec.toInt_inj]; rfl

theorem isNonZero_eq (c : Word) : isNonZero c = decide (c ≠ 0) := by
  unfold isNonZero
  by_cases h : c.toInt = 0
  · simp [toInt_eq_zero.1 h]
  · have h' : ¬ c = 0#64 := mt toInt_eq_zero.2 h
    simp [bne_iff_ne, h, h']

theorem isZero_eq (c : Word) : isZero c = decide (c = 0) := by
  unfold isZero
  by_cases h : c.toInt = 0
  · simp [toInt_eq_zero.1 h]
  · have h' : ¬ c = 0#64 := mt toInt_eq_zero.2 h
    simp [h, h']

theorem equalCell_eq (x y : Word) : equalCell x y = if x = y then 1 else 0 := by
  simp only [equalCell, BitVec.toInt_inj]

theorem belowCap_iff {c : Config} {a : Nat} : belowCap c a = true ↔ ∀ cap, c.memCap = some cap → a < cap := by
  unfold belowCap
  cases h : c.memCap <;> simp

/-! ### Good operands -/

/-- A storing operation with good operands comes to its result and its write. -/
theorem storeResult_of_operands {op : Word → Word → State → Result Word} {m1 m2 m3 : Mode} {a : Word} {s : State}
    (h1 : SourceOk s 1 m1) (h2 : SourceOk s 2 m2) (h3 : TargetResolves s 3 m3 a) :
    storeResult op m1 m2 m3 s =
      (op (sourceValue s 1 m1) (sourceValue s 2 m2) (grownBy s (fourCellReads s m1 m2))).bind
        fun r s => store a r 4 s := by
  unfold storeResult
  rw [source_of_sourceOk h1, Result.bind_ok, source_of_sourceOk (source_good_grownBy.2 h2), Result.bind_ok,
    sourceCells_grownBy, grownBy_grownBy, sourceValue_grownBy,
    destination_of_targetResolves (target_resolves_grownBy.2 h3), Result.bind_ok, grownBy_grownBy]
  rfl

/-- A good write and a good new `pc` end the operation. -/
theorem write_of_accessOk {a r : Word} {n : Nat} {s : State} (ha : AccessOk s a)
    (hp : SumOk s s.pc (BitVec.ofNat 64 n)) :
    store a r n s =
      .ok () (((grownBy s [a]).setMem (s.mem.write a.toNat r)).setPc (s.pc + BitVec.ofNat 64 n)) := by
  have h := advance_of_sumOk (s := (grownBy s [a]).setMem (s.mem.write a.toNat r)) (n := n) hp
  rw [store, memWrite_of_accessOk ha, Result.bind_ok, h]
  rfl

/-- A jump that is taken sets `pc` to operand 2's value. -/
theorem jumpWhen_taken {cond : Word → Bool} {m1 m2 : Mode} {s : State} (h1 : SourceOk s 1 m1)
    (h2 : SourceOk s 2 m2) (hc : cond (sourceValue s 1 m1) = true) :
    jumpWhen cond m1 m2 s =
      .ok () ((grownBy s (sourceCells s 1 m1 ++ sourceCells s 2 m2)).setPc (sourceValue s 2 m2)) := by
  unfold jumpWhen
  rw [source_of_sourceOk h1, Result.bind_ok, if_pos hc, source_of_sourceOk (source_good_grownBy.2 h2),
    Result.bind_ok, sourceCells_grownBy, grownBy_grownBy, sourceValue_grownBy]

/-- A jump that is not taken only advances. -/
theorem jumpWhen_not_taken {cond : Word → Bool} {m1 m2 : Mode} {s : State} (h1 : SourceOk s 1 m1)
    (hc : cond (sourceValue s 1 m1) = false) :
    jumpWhen cond m1 m2 s = advance 3 (grownBy s (sourceCells s 1 m1)) := by
  unfold jumpWhen
  rw [source_of_sourceOk h1, Result.bind_ok, if_neg (by simp [hc])]

/-! ### Everything an operand can answer -/

/-- The cells an instruction touched can be accessed, so growth by them stays in the address space. -/
def AllAccessOk (s : State) (as : List Word) : Prop := ∀ a ∈ as, AccessOk s a

theorem sourceCells_accessOk {s : State} {k : Nat} {m : Mode} (h : SourceOk s k m) :
    AllAccessOk s (sourceCells s k m) := by
  intro a ha
  cases m with
  | pointer => simp [sourceCells, operandAddress] at ha; rcases ha with rfl | rfl; exacts [h.1.2, h.2]
  | value => simp [sourceCells, operandAddress] at ha; subst ha; exact h.1.2
  | relative => simp [sourceCells, operandAddress] at ha; rcases ha with rfl | rfl; exacts [h.1.2, h.2.2]

/-- Everything the fetch of an operand cell can answer. -/
theorem fetchOperand_cases (k : Nat) (s : State) :
    (FetchOk s k ∧ fetchOperand k s = .ok (rawOperand s k) (grownBy s [operandCell s k])) ∨
      (¬ FetchOk s k ∧ ∃ c, fetchOperand k s = .raise c s) := by
  by_cases h : FetchOk s k
  · exact .inl ⟨h, fetchOperand_of_fetchOk h⟩
  · refine .inr ⟨h, ?_⟩
    unfold fetchOperand
    rcases add64_cases s.pc (BitVec.ofNat 64 k) s with ⟨hs, e⟩ | ⟨_, e⟩ <;> rw [e]
    · rw [Result.bind_ok]
      rcases memRead_cases (s.pc + BitVec.ofNat 64 k) s with ⟨ha, _⟩ | ⟨kind, e, _⟩
      · exact absurd ⟨hs, ha⟩ h
      · exact ⟨_, e⟩
    · exact ⟨_, rfl⟩

/-- Everything a source operand can answer: its value, or a raise that has only grown memory. -/
theorem source_cases (k : Nat) (m : Mode) (s : State) :
    (SourceOk s k m ∧ source k m s = .ok (sourceValue s k m) (grownBy s (sourceCells s k m))) ∨
      (¬ SourceOk s k m ∧ ∃ c as, AllAccessOk s as ∧ source k m s = .raise c (grownBy s as)) := by
  by_cases h : SourceOk s k m
  · exact .inl ⟨h, source_of_sourceOk h⟩
  · refine .inr ⟨h, ?_⟩
    unfold source
    rcases fetchOperand_cases k s with ⟨hf, e⟩ | ⟨_, c, e⟩ <;> rw [e]
    · have hcell : AllAccessOk s [operandCell s k] := by
        intro a ha
        rw [List.mem_singleton.1 ha]
        exact hf.2
      rw [Result.bind_ok]
      cases m with
      | pointer =>
        rcases memRead_cases (rawOperand s k) (grownBy s [operandCell s k]) with ⟨ha, _⟩ | ⟨kind, e, _⟩
        · exact absurd ⟨hf, ha⟩ h
        · exact ⟨_, _, hcell, e⟩
      | value => exact absurd ⟨hf, trivial⟩ h
      | relative =>
        rcases add64_cases (rawOperand s k) s.rb (grownBy s [operandCell s k]) with ⟨hs, e⟩ | ⟨_, e⟩
        · rcases memRead_cases (rawOperand s k + s.rb) (grownBy s [operandCell s k]) with ⟨ha, _⟩ | ⟨kind, e', _⟩
          · exact absurd ⟨hf, hs, ha⟩ h
          · exact ⟨_, _, hcell, (congrArg (Result.bind · memRead) e).trans e'⟩
        · exact ⟨_, _, hcell, congrArg (Result.bind · memRead) e⟩
    · exact ⟨c, [], fun _ h => absurd h (by simp), rfl⟩

/-- Everything a target operand can answer: its address, or a raise that has only grown memory. -/
theorem destination_cases (k : Nat) (m : Mode) (s : State) :
    (∃ a, TargetResolves s k m a ∧ destination k m s = .ok a (grownBy s [operandCell s k])) ∨
      ((∀ a, ¬ TargetResolves s k m a) ∧ ∃ c as, AllAccessOk s as ∧ destination k m s = .raise c (grownBy s as)) := by
  by_cases h : ∃ a, TargetResolves s k m a
  · obtain ⟨a, ha⟩ := h
    exact .inl ⟨a, ha, destination_of_targetResolves ha⟩
  · push Not at h
    refine .inr ⟨h, ?_⟩
    unfold destination
    rcases fetchOperand_cases k s with ⟨hf, e⟩ | ⟨_, c, e⟩ <;> rw [e]
    · have hcell : AllAccessOk s [operandCell s k] := by
        intro a ha
        rw [List.mem_singleton.1 ha]
        exact hf.2
      rw [Result.bind_ok]
      cases m with
      | pointer => exact absurd ⟨hf, rfl, fun h => by cases h⟩ (h (rawOperand s k))
      | value => exact ⟨_, _, hcell, rfl⟩
      | relative =>
        rcases add64_cases (rawOperand s k) s.rb (grownBy s [operandCell s k]) with ⟨hs, _⟩ | ⟨_, e⟩
        · exact absurd ⟨hf, rfl, fun _ => hs⟩ (h (rawOperand s k + s.rb))
        · exact ⟨_, _, hcell, e⟩
    · exact ⟨c, [], fun _ h => absurd h (by simp), rfl⟩

/-! ### Everything an operation can do -/

/-- How the end of a storing operation comes out: one cell written and `pc` moved on, or a raise that has done nothing. -/
theorem store_cases (a r : Word) (n : Nat) (s : State) :
    (∃ c, store a r n s = .raise c s) ∨
    (AccessOk s a ∧ store a r n s =
      .ok () (((grownBy s [a]).setMem (s.mem.write a.toNat r)).setPc (s.pc + BitVec.ofNat 64 n))) := by
  unfold store
  rcases memWrite_cases a r s with ⟨ha, e⟩ | ⟨k, e, _⟩ <;> rw [e]
  · rw [Result.bind_ok]
    rcases advance_undoTo_cases n ((grownBy s [a]).setMem (s.mem.write a.toNat r)) s with ⟨_, e⟩ | ⟨_, e⟩
    · exact .inr ⟨ha, e⟩
    · exact .inl ⟨_, e⟩
  · exact .inl ⟨_, rfl⟩

/-- A storing operation whose new `pc` is no Word traps, and has written nothing. -/
theorem store_of_pc_overflow {a r : Word} {n : Nat} {s : State} (ha : AccessOk s a)
    (hp : ¬ SumOk s s.pc (BitVec.ofNat 64 n)) : store a r n s = .raise ⟨.arithOverflow, none, none⟩ s := by
  rw [store, memWrite_of_accessOk ha, Result.bind_ok]
  rcases advance_undoTo_cases n ((grownBy s [a]).setMem (s.mem.write a.toNat r)) s with ⟨h, _⟩ | ⟨_, e⟩
  · exact absurd h hp
  · exact e

/-- The result of an operation that only computes: a value, or a raise, from the state as it is. -/
def Computes (op : Word → Word → State → Result Word) : Prop :=
  ∀ x y s, (∃ r, op x y s = .ok r s) ∨ (∃ c, op x y s = .raise c s)

theorem add64_computes : Computes add64 := fun x y s => by
  rcases add64_cases x y s with ⟨_, e⟩ | ⟨_, e⟩ <;> rw [e]
  · exact .inl ⟨_, rfl⟩
  · exact .inr ⟨_, rfl⟩

theorem mul64_computes : Computes mul64 := fun x y s => by
  rcases mul64_cases x y s with ⟨_, e⟩ | ⟨_, e⟩ <;> rw [e]
  · exact .inl ⟨_, rfl⟩
  · exact .inr ⟨_, rfl⟩

/-- Everything a storing operation can do: raise with memory only grown, or write one cell, its target, and complete. -/
theorem storeResult_cases {op : Word → Word → State → Result Word} (hop : Computes op) (m1 m2 m3 : Mode) (s : State) :
    (∃ c as, AllAccessOk s as ∧ storeResult op m1 m2 m3 s = .raise c (grownBy s as)) ∨
    (∃ a r as, TargetResolves s 3 m3 a ∧ AllAccessOk s (as ++ [a]) ∧
      storeResult op m1 m2 m3 s =
        .ok () (((grownBy s (as ++ [a])).setMem (s.mem.write a.toNat r)).setPc (s.pc + 4))) := by
  rcases source_cases 1 m1 s with ⟨h1, e1⟩ | ⟨_, c, as, ha, e1⟩
  · rcases source_cases 2 m2 (grownBy s (sourceCells s 1 m1)) with ⟨h2, e2⟩ | ⟨_, c, as, ha, e2⟩
    · have h2 : SourceOk s 2 m2 := source_good_grownBy.1 h2
      rw [sourceCells_grownBy, grownBy_grownBy, sourceValue_grownBy] at e2
      rcases destination_cases 3 m3 (grownBy s (sourceCells s 1 m1 ++ sourceCells s 2 m2)) with
        ⟨a, h3, e3⟩ | ⟨_, c, as, ha, e3⟩
      · have h3 : TargetResolves s 3 m3 a := target_resolves_grownBy.1 h3
        rw [storeResult_of_operands h1 h2 h3]
        have hreads : AllAccessOk s (fourCellReads s m1 m2) := by
          intro b hb
          simp only [fourCellReads, List.mem_append, List.mem_singleton] at hb
          rcases hb with (hb | hb) | rfl
          · exact sourceCells_accessOk h1 b hb
          · exact sourceCells_accessOk h2 b hb
          · exact h3.1.2
        rcases hop (sourceValue s 1 m1) (sourceValue s 2 m2) (grownBy s (fourCellReads s m1 m2)) with ⟨r, e⟩ | ⟨c, e⟩
        · rw [e, Result.bind_ok]
          rcases store_cases a r 4 (grownBy s (fourCellReads s m1 m2)) with ⟨c, e⟩ | ⟨ha, e⟩
          · exact .inl ⟨c, _, hreads, e⟩
          · rw [grownBy_grownBy] at e
            refine .inr ⟨a, r, fourCellReads s m1 m2, h3, ?_, e⟩
            intro b hb
            rcases List.mem_append.1 hb with hb | hb
            · exact hreads b hb
            · rw [List.mem_singleton.1 hb]; exact ha
        · rw [e]; exact .inl ⟨c, _, hreads, rfl⟩
      · refine .inl ⟨c, sourceCells s 1 m1 ++ sourceCells s 2 m2 ++ as, ?_, ?_⟩
        · intro b hb
          simp only [List.mem_append] at hb
          rcases hb with (hb | hb) | hb
          · exact sourceCells_accessOk h1 b hb
          · exact sourceCells_accessOk h2 b hb
          · exact ha b hb
        · unfold storeResult
          rw [e1, Result.bind_ok, e2, Result.bind_ok, e3, Result.bind_raise, grownBy_grownBy]
    · refine .inl ⟨c, sourceCells s 1 m1 ++ as, ?_, ?_⟩
      · intro b hb
        rcases List.mem_append.1 hb with hb | hb
        · exact sourceCells_accessOk h1 b hb
        · exact ha b hb
      · unfold storeResult
        rw [e1, Result.bind_ok, e2, Result.bind_raise, grownBy_grownBy]
  · exact .inl ⟨c, as, ha, by unfold storeResult; rw [e1, Result.bind_raise]⟩

/-- Everything a jump can do: raise with memory only grown, or set `pc`. -/
theorem jumpWhen_cases (cond : Word → Bool) (m1 m2 : Mode) (s : State) :
    (∃ c as, AllAccessOk s as ∧ jumpWhen cond m1 m2 s = .raise c (grownBy s as)) ∨
    (∃ as a, AllAccessOk s as ∧ jumpWhen cond m1 m2 s = .ok () ((grownBy s as).setPc a)) := by
  rcases source_cases 1 m1 s with ⟨h1, e1⟩ | ⟨_, c, as, ha, e1⟩
  · have hc1 := sourceCells_accessOk h1
    cases hc : cond (sourceValue s 1 m1) with
    | false =>
      rw [jumpWhen_not_taken h1 hc]
      rcases advance_cases 3 (grownBy s (sourceCells s 1 m1)) with ⟨_, e⟩ | ⟨_, e⟩ <;> rw [e]
      · exact .inr ⟨_, _, hc1, rfl⟩
      · exact .inl ⟨_, _, hc1, rfl⟩
    | true =>
      rcases source_cases 2 m2 (grownBy s (sourceCells s 1 m1)) with ⟨h2, _⟩ | ⟨_, c, as, ha, e2⟩
      · have h2 : SourceOk s 2 m2 := source_good_grownBy.1 h2
        refine .inr ⟨_, _, ?_, jumpWhen_taken h1 h2 hc⟩
        intro b hb
        rcases List.mem_append.1 hb with hb | hb
        · exact hc1 b hb
        · exact sourceCells_accessOk h2 b hb
      · refine .inl ⟨c, sourceCells s 1 m1 ++ as, ?_, ?_⟩
        · intro b hb
          rcases List.mem_append.1 hb with hb | hb
          · exact hc1 b hb
          · exact ha b hb
        · unfold jumpWhen
          rw [e1, Result.bind_ok, if_pos hc, e2, Result.bind_raise, grownBy_grownBy]
  · exact .inl ⟨c, as, ha, by unfold jumpWhen; rw [e1, Result.bind_raise]⟩

/-- Everything `AdjustRelativeBase` can do: raise with memory only grown, or add its operand to `rb` and complete. -/
theorem adjustBody_cases (m1 : Mode) (s : State) :
    (∃ c as, AllAccessOk s as ∧ adjustBody m1 s = .raise c (grownBy s as)) ∨
    (SourceOk s 1 m1 ∧ ∃ as, AllAccessOk s as ∧
      adjustBody m1 s = .ok () (((grownBy s as).setRb (s.rb + sourceValue s 1 m1)).setPc (s.pc + 2))) := by
  unfold adjustBody
  rcases source_cases 1 m1 s with ⟨h1, e1⟩ | ⟨_, c, as, ha, e1⟩ <;> rw [e1]
  · have hc1 := sourceCells_accessOk h1
    rw [Result.bind_ok, grownBy_rb]
    rcases add64_cases s.rb (sourceValue s 1 m1) (grownBy s (sourceCells s 1 m1)) with ⟨_, e⟩ | ⟨_, e⟩ <;> rw [e]
    · rw [Result.bind_ok]
      rcases advance_undoTo_cases 2 ((grownBy s (sourceCells s 1 m1)).setRb (s.rb + sourceValue s 1 m1))
        (grownBy s (sourceCells s 1 m1)) with ⟨_, e⟩ | ⟨_, e⟩
      · exact .inr ⟨h1, _, hc1, e⟩
      · exact .inl ⟨_, _, hc1, e⟩
    · exact .inl ⟨_, _, hc1, rfl⟩
  · exact .inl ⟨c, as, ha, rfl⟩

/-- Everything `Input` can do: wait; raise, the port polled or not and memory only grown; or write the delivered Word to
its target and complete. -/
theorem inputBody_cases (m1 : Mode) (s : State) :
    (inputBody m1 s = .blocked .input (pollIn s.inPort).2 s.outPort ∧ (pollIn s.inPort).1 = .notReady) ∨
    (∃ c as, AllAccessOk s as ∧ inputBody m1 s = .raise c ((grownBy s as).setInPort (pollIn s.inPort).2)) ∨
    (∃ a x as, (pollIn s.inPort).1 = .value x ∧ TargetResolves s 1 m1 a ∧ AllAccessOk s (as ++ [a]) ∧
      inputBody m1 s = .ok () ((((grownBy s (as ++ [a])).setInPort (pollIn s.inPort).2).setMem
        (s.mem.write a.toNat x)).setPc (s.pc + 2))) := by
  unfold inputBody
  rcases inRead_cases s with ⟨x, p, hp, e⟩ | ⟨k, p, hp, e⟩ | ⟨p, hp, e⟩ <;> rw [e]
  · right
    rw [Result.bind_ok, hp]
    rcases destination_cases 1 m1 (s.setInPort p) with ⟨a, h1, e1⟩ | ⟨_, c, as, ha, e1⟩ <;> rw [e1]
    · have h1 : TargetResolves s 1 m1 a := by cases m1 <;> exact h1
      have hcell : AllAccessOk s [operandCell s 1] := by
        intro b hb
        rw [List.mem_singleton.1 hb]
        exact h1.1.2
      rw [Result.bind_ok]
      rcases store_cases a x 2 (grownBy (s.setInPort p) [operandCell s 1]) with ⟨c, e⟩ | ⟨ha, e⟩
      · exact .inl ⟨c, _, hcell, e⟩
      · rw [grownBy_grownBy] at e
        refine .inr ⟨a, x, [operandCell s 1], rfl, h1, ?_, e⟩
        intro b hb
        rcases List.mem_append.1 hb with hb | hb
        · exact hcell b hb
        · rw [List.mem_singleton.1 hb]; exact ha
    · exact .inl ⟨c, as, ha, rfl⟩
  · right; left
    exact ⟨_, [], fun _ h => absurd h (by simp), by rw [hp]; rfl⟩
  · left
    rw [hp]
    exact ⟨rfl, rfl⟩

/-- Everything `Output` can do: wait; raise with memory only grown and nothing sent; or send its operand and complete. -/
theorem outputBody_cases (m1 : Mode) (s : State) :
    (outputBody m1 s = .blocked .output s.inPort (pollOut s.outPort).2 ∧ SourceOk s 1 m1 ∧
      (pollOut s.outPort).1 = .notReady) ∨
    (∃ c as q, AllAccessOk s as ∧ outputBody m1 s = .raise c ((grownBy s as).setOutPort q)) ∨
    ((pollOut s.outPort).1 = .accepted ∧ SourceOk s 1 m1 ∧ ∃ as, AllAccessOk s as ∧
      outputBody m1 s = .ok () ((((grownBy s as).setOutPort (pollOut s.outPort).2).setOutput
          (s.output ++ [sourceValue s 1 m1])).setPc (s.pc + 2))) := by
  unfold outputBody
  rcases source_cases 1 m1 s with ⟨h1, e1⟩ | ⟨_, c, as, ha, e1⟩ <;> rw [e1]
  · have hc1 := sourceCells_accessOk h1
    rw [Result.bind_ok]
    rcases outWrite_cases (sourceValue s 1 m1) (grownBy s (sourceCells s 1 m1)) with
      ⟨p, hp, e⟩ | ⟨k, p, hp, e⟩ | ⟨p, hp, e⟩ <;> rw [e] <;>
      have hp : pollOut s.outPort = _ := hp
    · right
      rw [hp, Result.bind_ok]
      rcases advance_undoTo_cases 2 (((grownBy s (sourceCells s 1 m1)).setOutPort p).setOutput
        ((grownBy s (sourceCells s 1 m1)).output ++ [sourceValue s 1 m1])) (grownBy s (sourceCells s 1 m1)) with
        ⟨_, e⟩ | ⟨_, e⟩
      · exact .inr ⟨rfl, h1, _, hc1, e⟩
      · exact .inl ⟨_, _, s.outPort, hc1, e⟩
    · exact .inr (.inl ⟨_, _, p, hc1, rfl⟩)
    · left; rw [hp]; exact ⟨rfl, h1, rfl⟩
  · exact .inr (.inl ⟨c, as, s.outPort, ha, rfl⟩)

end Sys2Proof.Machine
end

