-- ==== Sys2Proof/Laws/Effect.lean ====
section
/-! SUPPORT. Everything an instruction's operation can do, in one relation for all ten: which fields it may write, and what
a raise has left. Frames and invariants follow from it without unfolding the instructions again. -/

namespace Sys2Proof.Machine

/-- The address the instruction stores to, if it is one that stores and its target resolves. -/
def StoresTo (s : State) (a : Word) : Instr → Prop
  | .endOp _ _ _ => False
  | .add _ _ m3 => TargetResolves s 3 m3 a
  | .mul _ _ m3 => TargetResolves s 3 m3 a
  | .input m1 _ _ => TargetResolves s 1 m1 a
  | .output _ _ _ => False
  | .jumpIfNotZero _ _ _ => False
  | .jumpIfZero _ _ _ => False
  | .lessThan _ _ m3 => TargetResolves s 3 m3 a
  | .equalTo _ _ m3 => TargetResolves s 3 m3 a
  | .adjustRelativeBase _ _ _ => False

/-- What the operation of `i`, begun in `s`, may have done when it has come to `u`, completed or not. -/
structure Effect (i : Instr) (s u : State) : Prop where
  rb : u.rb = s.rb ∨ ∃ m1 m2 m3, i = .adjustRelativeBase m1 m2 m3 ∧ SourceOk s 1 m1 ∧
    u.rb = s.rb + sourceValue s 1 m1
  mem : u.mem = s.mem ∨ ∃ a r, StoresTo s a i ∧ AccessOk s a ∧ u.mem = s.mem.write a.toNat r ∧ a.toNat < u.memLen
  memLen : ∃ as, AllAccessOk s as ∧ u.memLen = memLenAfter s.memLen as
  image : u.image = s.image
  trace : u.trace = s.trace
  status : u.status = s.status ∨ ((∃ m1 m2 m3, i = .endOp m1 m2 m3) ∧ u.status = .halted)
  fault : u.fault = s.fault
  output : u.output = s.output ∨ ∃ m1 m2 m3, i = .output m1 m2 m3 ∧ (pollOut s.outPort).1 = .accepted ∧
    SourceOk s 1 m1 ∧ u.output = s.output ++ [sourceValue s 1 m1]
  inPort : u.inPort = s.inPort ∨ ((∃ m1 m2 m3, i = .input m1 m2 m3) ∧ u.inPort = (pollIn s.inPort).2)
  outPort : u.outPort = s.outPort ∨ ∃ m1 m2 m3, i = .output m1 m2 m3
  config : u.config = s.config

/-- What a raise has left: `pc`, the status, `rb`, the output and memory stand (spec/60_exceptions.md R139). -/
def RaiseLeaves (s u : State) : Prop :=
  u.pc = s.pc ∧ u.status = s.status ∧ u.rb = s.rb ∧ u.output = s.output ∧ u.mem = s.mem

/-- Only the ports' instructions wait, each on its own port, and a wait leaves the other port alone. -/
def WaitsOn (i : Instr) (s : State) (d : IoDir) (p : InPort) (o : OutPort) : Prop :=
  ((∃ m1 m2 m3, i = .input m1 m2 m3) ∧ d = .input ∧ p = (pollIn s.inPort).2 ∧ o = s.outPort ∧ (pollIn s.inPort).1 = .notReady) ∨
    ((∃ m1 m2 m3, i = .output m1 m2 m3 ∧ SourceOk s 1 m1) ∧ d = .output ∧ p = s.inPort ∧ o = (pollOut s.outPort).2 ∧
      (pollOut s.outPort).1 = .notReady)

theorem lt_memLenAfter {n : Nat} {as : List Word} {a : Word} (h : a ∈ as) : a.toNat < memLenAfter n as := by
  induction as generalizing n with
  | nil => cases h
  | cons b as ih =>
    rw [memLenAfter_cons]
    rcases List.mem_cons.1 h with rfl | h
    · exact Nat.lt_of_lt_of_le (Nat.lt_of_lt_of_le (Nat.lt_succ_self _) (Nat.le_max_right ..)) (le_memLenAfter _ _)
    · exact ih h

/-- An operation that has only read. -/
theorem Effect.of_reads {i : Instr} {s : State} {as : List Word} (h : AllAccessOk s as) : Effect i s (grownBy s as) :=
  ⟨.inl rfl, .inl rfl, ⟨as, h, rfl⟩, rfl, rfl, .inl rfl, rfl, .inl rfl, .inl rfl, .inl rfl, rfl⟩

/-- An operation that has read and then written its target. -/
theorem Effect.of_write {i : Instr} {s : State} {a r : Word} {as : List Word} (hs : StoresTo s a i)
    (h : AllAccessOk s (as ++ [a])) : Effect i s ((grownBy s (as ++ [a])).setMem (s.mem.write a.toNat r)) :=
  ⟨.inl rfl, .inr ⟨a, r, hs, h a (by simp), rfl, lt_memLenAfter (by simp)⟩, ⟨_, h, rfl⟩, rfl, rfl, .inl rfl, rfl,
    .inl rfl, .inl rfl, .inl rfl, rfl⟩

theorem Effect.setPc {i : Instr} {s u : State} (h : Effect i s u) (a : Word) : Effect i s (u.setPc a) :=
  ⟨h.rb, h.mem, h.memLen, h.image, h.trace, h.status, h.fault, h.output, h.inPort, h.outPort, h.config⟩

/-- Everything the operation of an instruction can do. -/
def DoesAtMost (i : Instr) (s : State) (r : Result Unit) : Prop :=
  (∃ d p o, r = .blocked d p o ∧ WaitsOn i s d p o) ∨
  (∃ c u, r = .raise c u ∧ Effect i s u ∧ RaiseLeaves s u) ∨
  (∃ u, r = .ok () u ∧ Effect i s u)

theorem storeResult_does {op : Word → Word → State → Result Word} (hop : Computes op) {m1 m2 m3 : Mode} {i : Instr}
    {s : State} (hi : ∀ a, TargetResolves s 3 m3 a → StoresTo s a i) :
    DoesAtMost i s (storeResult op m1 m2 m3 s) := by
  rcases storeResult_cases hop m1 m2 m3 s with ⟨c, as, h, e⟩ | ⟨a, r, as, ha, h, e⟩ <;> rw [e]
  · exact .inr (.inl ⟨_, _, rfl, Effect.of_reads h, rfl, rfl, rfl, rfl, rfl⟩)
  · exact .inr (.inr ⟨_, rfl, (Effect.of_write (hi a ha) h).setPc _⟩)

theorem jumpWhen_does (cond : Word → Bool) (m1 m2 : Mode) (i : Instr) (s : State) :
    DoesAtMost i s (jumpWhen cond m1 m2 s) := by
  rcases jumpWhen_cases cond m1 m2 s with ⟨c, as, h, e⟩ | ⟨as, a, h, e⟩ <;> rw [e]
  · exact .inr (.inl ⟨_, _, rfl, Effect.of_reads h, rfl, rfl, rfl, rfl, rfl⟩)
  · exact .inr (.inr ⟨_, rfl, (Effect.of_reads h).setPc _⟩)

theorem adjustBody_does (m1 m2 m3 : Mode) (s : State) :
    DoesAtMost (.adjustRelativeBase m1 m2 m3) s (adjustBody m1 s) := by
  have added : ∀ as, AllAccessOk s as → SourceOk s 1 m1 → Effect (.adjustRelativeBase m1 m2 m3) s
      ((grownBy s as).setRb (s.rb + sourceValue s 1 m1)) := fun as h h1 =>
    ⟨.inr ⟨m1, m2, m3, rfl, h1, rfl⟩, .inl rfl, ⟨as, h, rfl⟩, rfl, rfl, .inl rfl, rfl, .inl rfl, .inl rfl, .inl rfl, rfl⟩
  rcases adjustBody_cases m1 s with ⟨c, as, h, e⟩ | ⟨h1, as, h, e⟩ <;> rw [e]
  · exact .inr (.inl ⟨_, _, rfl, Effect.of_reads h, rfl, rfl, rfl, rfl, rfl⟩)
  · exact .inr (.inr ⟨_, rfl, (added as h h1).setPc _⟩)

theorem inputBody_does (m1 m2 m3 : Mode) (s : State) : DoesAtMost (.input m1 m2 m3) s (inputBody m1 s) := by
  have hin : (∃ a b c, Instr.input m1 m2 m3 = .input a b c) := ⟨_, _, _, rfl⟩
  have written : ∀ a x as, TargetResolves s 1 m1 a → AllAccessOk s (as ++ [a]) → Effect (.input m1 m2 m3) s
      (((grownBy s (as ++ [a])).setInPort (pollIn s.inPort).2).setMem (s.mem.write a.toNat x)) := fun a x as ha h =>
    ⟨.inl rfl, .inr ⟨a, x, ha, h a (by simp), rfl, lt_memLenAfter (by simp)⟩, ⟨_, h, rfl⟩, rfl, rfl, .inl rfl, rfl,
      .inl rfl, .inr ⟨hin, rfl⟩, .inl rfl, rfl⟩
  rcases inputBody_cases m1 s with ⟨e, hn⟩ | ⟨c, as, h, e⟩ | ⟨a, x, as, _, ha, h, e⟩ <;> rw [e]
  · exact .inl ⟨_, _, _, rfl, .inl ⟨hin, rfl, rfl, rfl, hn⟩⟩
  · exact .inr (.inl ⟨_, _, rfl, ⟨.inl rfl, .inl rfl, ⟨as, h, rfl⟩, rfl, rfl, .inl rfl, rfl, .inl rfl, .inr ⟨hin, rfl⟩,
      .inl rfl, rfl⟩, rfl, rfl, rfl, rfl, rfl⟩)
  · exact .inr (.inr ⟨_, rfl, (written a x as ha h).setPc _⟩)

theorem outputBody_does (m1 m2 m3 : Mode) (s : State) : DoesAtMost (.output m1 m2 m3) s (outputBody m1 s) := by
  have hout : (∃ a b c, Instr.output m1 m2 m3 = .output a b c) := ⟨_, _, _, rfl⟩
  have sent : ∀ as, AllAccessOk s as → SourceOk s 1 m1 → (pollOut s.outPort).1 = .accepted →
      Effect (.output m1 m2 m3) s (((grownBy s as).setOutPort (pollOut s.outPort).2).setOutput
        (s.output ++ [sourceValue s 1 m1])) := fun as h h1 hp =>
    ⟨.inl rfl, .inl rfl, ⟨as, h, rfl⟩, rfl, rfl, .inl rfl, rfl, .inr ⟨m1, m2, m3, rfl, hp, h1, rfl⟩, .inl rfl,
      .inr hout, rfl⟩
  rcases outputBody_cases m1 s with ⟨e, h1, hn⟩ | ⟨c, as, q, h, e⟩ | ⟨hp, h1, as, h, e⟩ <;> rw [e]
  · exact .inl ⟨_, _, _, rfl, .inr ⟨⟨_, _, _, rfl, h1⟩, rfl, rfl, rfl, hn⟩⟩
  · exact .inr (.inl ⟨_, _, rfl, ⟨.inl rfl, .inl rfl, ⟨as, h, rfl⟩, rfl, rfl, .inl rfl, rfl, .inl rfl, .inl rfl,
      .inr hout, rfl⟩, rfl, rfl, rfl, rfl, rfl⟩)
  · exact .inr (.inr ⟨_, rfl, (sent as h h1 hp).setPc _⟩)

/-- Everything the operation of each instruction can do. -/
theorem bodyOf_does (i : Instr) (s : State) : DoesAtMost i s (bodyOf i s) := by
  cases i with
  | endOp m1 m2 m3 =>
    exact .inr (.inr ⟨_, rfl, ⟨.inl rfl, .inl rfl, ⟨[], fun _ h => absurd h (by simp), rfl⟩, rfl, rfl,
      .inr ⟨⟨m1, m2, m3, rfl⟩, rfl⟩, rfl, .inl rfl, .inl rfl, .inl rfl, rfl⟩⟩)
  | add m1 m2 m3 => exact storeResult_does add64_computes (fun _ h => h)
  | mul m1 m2 m3 => exact storeResult_does mul64_computes (fun _ h => h)
  | input m1 m2 m3 => exact inputBody_does m1 m2 m3 s
  | output m1 m2 m3 => exact outputBody_does m1 m2 m3 s
  | jumpIfNotZero m1 m2 m3 => exact jumpWhen_does _ m1 m2 _ s
  | jumpIfZero m1 m2 m3 => exact jumpWhen_does _ m1 m2 _ s
  | lessThan m1 m2 m3 => exact storeResult_does (fun x y s => .inl ⟨_, rfl⟩) (fun _ h => h)
  | equalTo m1 m2 m3 => exact storeResult_does (fun x y s => .inl ⟨_, rfl⟩) (fun _ h => h)
  | adjustRelativeBase m1 m2 m3 => exact adjustBody_does m1 m2 m3 s

theorem waitsOn_begun {i : Instr} {s : State} {d : IoDir} {p : InPort} {o : OutPort}
    (h : WaitsOn i (begun s) d p o) : WaitsOn i s d p o := by
  rcases h with h | ⟨⟨m1, m2, m3, hi, h1⟩, h⟩
  · exact .inl h
  · exact .inr ⟨⟨m1, m2, m3, hi, source_good_begun.1 h1⟩, h⟩

/-- Everything an instruction can do when it answers a next state: a fetch fault, a completion, a raise, or a wait. -/
theorem exec_cases {i : Instr} {s t : State} (h : exec i s = .next t) :
    (∃ k, ¬ AccessOk s s.pc ∧ t = enterFault none ⟨k, some s.pc, none⟩ s ∧
      (k = .addressError ∨ k = .capacityError)) ∨
    (AccessOk s s.pc ∧
      ((∃ u, t = u.setWaiting none ∧ Effect i (begun s) u) ∨
       (∃ c u, t = enterFault (some (s.mem.read s.pc.toNat)) c u ∧ Effect i (begun s) u ∧
          RaiseLeaves (begun s) u) ∨
       (∃ d p o, t = waitOnPort d p o s ∧ WaitsOn i s d p o))) := by
  rw [exec_eq_runInstr] at h
  rcases runInstr_cases h with hf | ⟨ha, ⟨u, hb, rfl⟩ | ⟨c, u, hb, rfl⟩ | ⟨d, p, o, hb, rfl⟩⟩
  · exact .inl hf
  · rcases bodyOf_does i (begun s) with ⟨d, p, o, e, _⟩ | ⟨c, v, e, _, _⟩ | ⟨v, e, he⟩ <;> rw [e] at hb <;> cases hb
    exact .inr ⟨ha, .inl ⟨u, rfl, he⟩⟩
  · rcases bodyOf_does i (begun s) with ⟨d, p, o, e, _⟩ | ⟨c, v, e, he, hl⟩ | ⟨v, e, _⟩ <;> rw [e] at hb <;> cases hb
    exact .inr ⟨ha, .inr (.inl ⟨c, u, rfl, he, hl⟩)⟩
  · rcases bodyOf_does i (begun s) with ⟨d', p', o', e, hw⟩ | ⟨c, v, e, _, _⟩ | ⟨v, e, _⟩ <;> rw [e] at hb <;> cases hb
    exact .inr ⟨ha, .inr (.inr ⟨d, p, o, rfl, waitsOn_begun hw⟩)⟩

/-- An Input whose opcode cell can be read polls its port once, whatever comes of it. -/
theorem exec_input_polls {m1 m2 m3 : Mode} {s t : State} (ha : AccessOk s s.pc)
    (h : exec (.input m1 m2 m3) s = .next t) : t.inPort = (pollIn s.inPort).2 := by
  rw [exec_input] at h
  have hb := inputBody_cases m1 (begun s)
  rcases runInstr_cases h with ⟨k, hn, _⟩ | ⟨_, ⟨u, e, rfl⟩ | ⟨c, u, e, rfl⟩ | ⟨d, i, o, e, rfl⟩⟩
  · exact absurd ha hn
  all_goals
    rcases hb with ⟨e', _⟩ | ⟨c', as, _, e'⟩ | ⟨a, x, as, _, _, _, e'⟩ <;> (rw [e'] at e; cases e <;> rfl)

/-- No other instruction touches the input port. -/
theorem exec_keeps_inPort {i : Instr} {s t : State} (hi : ∀ m1 m2 m3, i ≠ .input m1 m2 m3) (h : exec i s = .next t) :
    t.inPort = s.inPort := by
  have key : ∀ {u}, Effect i (begun s) u → u.inPort = s.inPort := fun he =>
    he.inPort.resolve_right fun ⟨⟨m1, m2, m3, h⟩, _⟩ => hi m1 m2 m3 h
  rcases exec_cases h with ⟨k, _, rfl, _⟩ | ⟨_, ⟨u, rfl, he⟩ | ⟨c, u, rfl, he, _⟩ | ⟨d, p, o, rfl, hw⟩⟩
  · rfl
  · exact key (u := u) he
  · exact key (u := u) he
  · rcases hw with ⟨⟨m1, m2, m3, h⟩, _⟩ | ⟨_, _, hp, _⟩
    · exact absurd h (hi m1 m2 m3)
    · exact hp

/-- Growth by cells that can be accessed stays in the address space. -/
theorem memLenAfter_le {s : State} {n : Nat} {as : List Word} (hn : n ≤ 2 ^ 63) (h : AllAccessOk s as) :
    memLenAfter n as ≤ 2 ^ 63 := by
  induction as generalizing n with
  | nil => exact hn
  | cons a as ih =>
    have ha := toNat_lt_of_nonneg (h a (by simp)).1
    rw [memLenAfter_cons]
    exact ih (by omega) fun b hb => h b (by simp [hb])

/-- Growth by cells that can be accessed stays below MEM_CAP. -/
theorem memLenAfter_le_cap {s : State} {n cap bound : Nat} {as : List Word} (hc : s.config.memCap = some cap)
    (hb : cap ≤ bound) (hn : n ≤ bound) (h : AllAccessOk s as) : memLenAfter n as ≤ bound := by
  induction as generalizing n with
  | nil => exact hn
  | cons a as ih =>
    have ha := belowCap_iff.1 (h a (by simp)).2 cap hc
    rw [memLenAfter_cons]
    exact ih (by omega) fun b hb => h b (by simp [hb])

end Sys2Proof.Machine
end

