-- ==== Sys2Proof/Laws/Commands.lean ====
section
/-! SUPPORT. The run loop where no step is admitted, and fetch and decode under a change of the ports, and
what a step does to the input port. -/

namespace Sys2Proof.Machine

/-- A run loop stays where the machine takes no step. -/
theorem runFor_of_stopped {t : State} (h : ∀ u, step t ≠ .next u) (n : Nat) : runFor n t = t := by
  cases n with
  | zero => rfl
  | succ n =>
    unfold runFor
    cases hs : step t with
    | next u => exact absurd hs (h u)
    | fault r => rfl
    | refused r => rfl

/-- A run that has come to a stop stays there. -/
theorem runFor_of_le {n m : Nat} (hnm : n ≤ m) {s t : State} (h : runFor n s = t) (ht : ∀ u, step t ≠ .next u) :
    runFor m s = t := by
  induction n generalizing s m with
  | zero => cases h; exact runFor_of_stopped ht m
  | succ n ih =>
    obtain ⟨m, rfl⟩ : ∃ k, m = k + 1 := ⟨m - 1, by omega⟩
    unfold runFor at h ⊢
    cases hs : step s with
    | next u => rw [hs] at h; exact ih (by omega) h
    | fault r => rw [hs] at h; exact h
    | refused r => rw [hs] at h; exact h

/-- The decoded instruction does not depend on the ports. -/
theorem fetchDecode_setPorts (s : State) (i : InPort) (o : OutPort) (j : Instr) :
    fetchDecode (s.setPorts i o) = .ok j ↔ fetchDecode s = .ok j := by
  have key : ∀ u : State, fetchDecode u = .ok j ↔ AccessOk u u.pc ∧ decode (u.mem.read u.pc.toNat) = .ok j := by
    intro u
    rcases fetchDecode_cases u with ⟨_, h, _, e⟩ | ⟨h, _, hd, e⟩ | ⟨h, _, hd, e⟩ <;> rw [e]
    · simp [h]
    · simp [hd]
    · simp [h, hd]
  rw [key, key]
  exact Iff.rfl

/-- An enabled step polls the input port once when it runs an `Input`, and else leaves it alone. -/
theorem step_inPort {s t : State} (h : step s = .next t) (hp : portAnswers s = true) :
    t.inPort = if atInput s then (pollIn s.inPort).2 else s.inPort := by
  have hb : (s.status == .ready || s.status == .running) = true := by
    rcases admitted_of_step h with h | h <;> simp [h]
  rw [atInput, hb, Bool.true_and]
  rw [step_of_admitted (admitted_of_step h) hp] at h
  rcases fetchDecode_cases s with ⟨k, _, _, e⟩ | ⟨_, er, _, e⟩ | ⟨ha, i, _, e⟩ <;> rw [e] at h ⊢
  · cases h
    rfl
  · cases h
    rfl
  · have h : exec i s = .next t := h
    cases i with
    | input m1 m2 m3 => exact exec_input_polls ha h
    | _ => exact exec_keeps_inPort (by simp) h

end Sys2Proof.Machine
end

