-- ==== Sys2Proof/Laws/PerInstr.lean ====
section
/-! SUPPORT. Facts about every instruction, one lemma a constructor: the value of its canonical cell. -/

/-- The canonical cell is not negative, and its value is `OP + 100*M1 + 1000*M2 + 10000*M3` with nothing lost to the
word's width (spec/opcode_table.json, `canonical_cell`). -/
def Sys2Proof.Laws.EncodedCell.Statement (i : Sys2Proof.Instr) : Prop :=
  0 ≤ (Sys2Proof.encode i).toInt ∧ (Sys2Proof.encode i).toNat =
    i.opcode + 100 * i.modes.1.digit + 1000 * i.modes.2.1.digit + 10000 * i.modes.2.2.digit

namespace Sys2Proof.Laws.EncodedCell

theorem endOp (m1 m2 m3 : Mode) : Statement (.endOp m1 m2 m3) := by cases m1 <;> cases m2 <;> cases m3 <;> exact ⟨by decide, rfl⟩
theorem add (m1 m2 m3 : Mode) : Statement (.add m1 m2 m3) := by cases m1 <;> cases m2 <;> cases m3 <;> exact ⟨by decide, rfl⟩
theorem mul (m1 m2 m3 : Mode) : Statement (.mul m1 m2 m3) := by cases m1 <;> cases m2 <;> cases m3 <;> exact ⟨by decide, rfl⟩
theorem input (m1 m2 m3 : Mode) : Statement (.input m1 m2 m3) := by cases m1 <;> cases m2 <;> cases m3 <;> exact ⟨by decide, rfl⟩
theorem output (m1 m2 m3 : Mode) : Statement (.output m1 m2 m3) := by cases m1 <;> cases m2 <;> cases m3 <;> exact ⟨by decide, rfl⟩
theorem jumpIfNotZero (m1 m2 m3 : Mode) : Statement (.jumpIfNotZero m1 m2 m3) := by
  cases m1 <;> cases m2 <;> cases m3 <;> exact ⟨by decide, rfl⟩
theorem jumpIfZero (m1 m2 m3 : Mode) : Statement (.jumpIfZero m1 m2 m3) := by
  cases m1 <;> cases m2 <;> cases m3 <;> exact ⟨by decide, rfl⟩
theorem lessThan (m1 m2 m3 : Mode) : Statement (.lessThan m1 m2 m3) := by
  cases m1 <;> cases m2 <;> cases m3 <;> exact ⟨by decide, rfl⟩
theorem equalTo (m1 m2 m3 : Mode) : Statement (.equalTo m1 m2 m3) := by
  cases m1 <;> cases m2 <;> cases m3 <;> exact ⟨by decide, rfl⟩
theorem adjustRelativeBase (m1 m2 m3 : Mode) : Statement (.adjustRelativeBase m1 m2 m3) := by
  cases m1 <;> cases m2 <;> cases m3 <;> exact ⟨by decide, rfl⟩

end Sys2Proof.Laws.EncodedCell
end

