-- ==== Sys2Proof/Tests/Slice0.lean ====
section
/-! SUPPORT. The model's own tests, and a witness for every statement that has hypotheses. Expected results are those of
spec/95_test_vectors.md (named V-... and S...) and of the examples in the instruction rules, or are written out by hand
from the encoding of spec/30_encoding.md. -/

namespace Sys2Proof.Tests

open Sys2Proof.Machine

/-- 2^63, which as a Word is the smallest one: the `B` of spec/95_test_vectors.md, so `B - 1` is the largest. -/
def B : Word := 9223372036854775808

/-- The block after LOAD of an image. -/
def loaded (img : List Word) : State := loadImage img State.reset

/-- The input port whose environment answers `as` and then the last answer for ever. -/
def inputs (as : List InAnswer) (last : InAnswer) (s : State) : State := s.setInPort ⟨as, .always last, 0⟩

/-- The output port that always answers `a`. -/
def outputs (a : OutAnswer) (s : State) : State := s.setOutPort ⟨[], a⟩

/-- OVF_TRAPS = true. -/
def trapping (s : State) : State := { s with config := { s.config with ovfTraps := true } }

/-- A finite MEM_CAP. -/
def capped (n : Nat) (s : State) : State := { s with config := { s.config with memCap := some n } }

/-- What `f` says of the next state, if there is one. -/
def after {α : Type} (o : Host.Outcome State Fault Refusal) (f : State → α) : Option α :=
  match o with
  | .next t => some (f t)
  | .fault _ => none
  | .refused _ => none

/-! ### Which instructions are legal (R60): no write target in Value mode -/

theorem test_add_value_target_ill_formed : (Instr.add .pointer .pointer .value).wellFormed = false := by decide
theorem test_mul_value_target_ill_formed : (Instr.mul .value .relative .value).wellFormed = false := by decide
theorem test_lessThan_value_target_ill_formed : (Instr.lessThan .value .value .value).wellFormed = false := by decide
theorem test_equalTo_value_target_ill_formed : (Instr.equalTo .pointer .value .value).wellFormed = false := by decide
theorem test_input_value_target_ill_formed : (Instr.input .value .pointer .pointer).wellFormed = false := by decide
theorem test_unused_value_mode_well_formed : (Instr.endOp .value .value .value).wellFormed = true := by decide
theorem test_value_sources_well_formed : (Instr.add .value .value .relative).wellFormed = true := by decide

/-! ### Decoding: cells written out digit by digit from the encoding (V-D1 to V-D36) -/

theorem test_decode_end : decode 11199 = .ok (.endOp .value .value .value) := by decide
theorem test_decode_add : decode 21101 = .ok (.add .value .value .relative) := by decide
theorem test_decode_mul : decode 22202 = .ok (.mul .relative .relative .relative) := by decide
theorem test_decode_input : decode 203 = .ok (.input .relative .pointer .pointer) := by decide
theorem test_decode_output : decode 104 = .ok (.output .value .pointer .pointer) := by decide
theorem test_decode_jumpIfNotZero : decode 2105 = .ok (.jumpIfNotZero .value .relative .pointer) := by decide
theorem test_decode_jumpIfZero : decode 1006 = .ok (.jumpIfZero .pointer .value .pointer) := by decide
theorem test_decode_lessThan : decode 1207 = .ok (.lessThan .relative .value .pointer) := by decide
theorem test_decode_equalTo : decode 10108 = .ok (.equalTo .value .pointer .value) := by decide
theorem test_decode_adjustRelativeBase : decode 109 = .ok (.adjustRelativeBase .value .pointer .pointer) := by decide
theorem test_decode_high_digits_ignored : decode 1000099 = .ok (.endOp .pointer .pointer .pointer) := by decide
theorem test_decode_negative : decode (-99) = .error .unknownOpcode := by decide
theorem test_decode_zero : decode 0 = .error .unknownOpcode := by decide
theorem test_decode_opcode_error_first : decode 398 = .error .unknownOpcode := by decide
theorem test_decode_unused_mode_checked : decode 30099 = .error .unknownMode := by decide
theorem test_decode_largest_word : decode (B - 1) = .error .unknownMode := by decide
theorem test_encode_add : encode (.add .value .value .relative) = 21101 := by decide

/-! ### The host's two entry points -/

theorem test_table_word : decodeTableWord 64 1002 = some (.mul .pointer .value .pointer) := by decide
theorem test_table_word_refused : decodeTableWord 64 98 = none := by decide
theorem test_fetch_word_runs :
    after (step (State.reset.withFetchWord 64 1105)) (fun t => (t.pc, t.trace)) = some (3, [(0, 1105)]) := by decide

/-! ### One step of each instruction -/

/-- V-A2: the sum wraps. -/
theorem test_add_wraps :
    after (step (loaded [1101, B - 1, 1, 5, 99, 0])) (fun t => (t.mem.read 5, t.pc, t.memLen)) = some (B, 4, 6) := by
  decide

/-- V-M7: growth by each access, the write last. -/
theorem test_add_grows :
    after (step (loaded [1, 100, 101, 102, 99])) (fun t => (t.memLen, t.mem.read 102)) = some (103, 0) := by decide

/-- V-A6: the product is signed and wraps. -/
theorem test_mul_wraps : after (step (loaded [1102, B, -1, 5, 99, 7])) (fun t => t.mem.read 5) = some B := by decide

/-- V-A2 under OVF_TRAPS = true: nothing is written. -/
theorem test_add_traps :
    after (step (trapping (loaded [1101, B - 1, 1, 5, 99, 0]))) (fun t => (t.fault, t.mem.read 5, t.trace)) =
      some (some ⟨.arithOverflow, 0, some 1101, none, none⟩, 0, [(0, 1101)]) := by decide

/-- R139 with OVF_TRAPS = true, the instruction at the very top of memory: `rb` keeps its value. -/
theorem test_adjustRelativeBase_traps_at_the_top :
    after (step { trapping (loaded []) with pc := B - 2, mem := [(9223372036854775806, 109), (9223372036854775807, 5)] })
      (fun t => (t.rb, t.status)) = some (0, .faulted) := by decide

/-- R139 likewise: nothing has been sent. -/
theorem test_output_traps_at_the_top :
    after (step { trapping (loaded []) with pc := B - 2, mem := [(9223372036854775806, 104), (9223372036854775807, 5)] })
      (fun t => (t.output, t.fault)) = some ([], some ⟨.arithOverflow, B - 2, some 104, none, none⟩) := by decide

/-- R139, D26: no cell has changed and `mem_len` has grown by the reads alone; the port's value is lost. -/
theorem test_input_traps_at_the_top :
    after (step (inputs [.value 7] .notReady { trapping (loaded []) with
        pc := B - 2, mem := [(9223372036854775806, 3), (9223372036854775807, 5)] }))
      (fun t => (t.mem.read 5, t.status, t.inPort.script)) = some (0, .faulted, []) := by decide

/-- V-A4. -/
theorem test_mul_signed : after (step (loaded [1102, -3, 7, 5, 99, 0])) (fun t => t.mem.read 5) = some (-21) := by decide

/-- V-C1: signed order. -/
theorem test_lessThan_signed : after (step (loaded [1107, -1, 0, 5, 99, 7])) (fun t => t.mem.read 5) = some 1 := by decide

/-- V-C2: equal is not less, and the old 7 is overwritten. -/
theorem test_lessThan_equal : after (step (loaded [1107, 5, 5, 5, 99, 7])) (fun t => t.mem.read 5) = some 0 := by decide

/-- V-C8: an instruction overwrites its own opcode cell. -/
theorem test_equalTo_own_cell :
    after (step (loaded [8, 0, 0, 0, 99])) (fun t => (t.mem.read 0, t.pc)) = some (1, 4) := by decide

/-- V-C5. -/
theorem test_equalTo_differs : after (step (loaded [1108, 5, -5, 5, 99, 7])) (fun t => t.mem.read 5) = some 0 := by decide

/-- V-J5: an indirect jump. -/
theorem test_jumpIfNotZero_indirect : after (step (loaded [5, 4, 5, 99, 1, 3])) (fun t => t.pc) = some 3 := by decide

/-- V-J6: a jump not taken does not look at its target. -/
theorem test_jumpIfNotZero_lazy :
    after (step (loaded [5, 6, -1, 99, 0, 0, 0])) (fun t => (t.pc, t.status, t.memLen)) = some (3, .ready, 7) := by decide

/-- V-J3. -/
theorem test_jumpIfZero_taken : after (step (loaded [1106, 0, 4, 0, 99])) (fun t => t.pc) = some 4 := by decide

/-- V-J4. -/
theorem test_jumpIfZero_falls_through : after (step (loaded [1106, 3, 4, 99, 0])) (fun t => t.pc) = some 3 := by decide

/-- S2: the input overwrites the cell it was fetched from; the trace keeps the cell fetched. -/
theorem test_input_own_cell :
    after (step (inputs [.value 42] .notReady (loaded [3, 0, 4, 0, 99]))) (fun t => (t.mem.read 0, t.pc, t.trace)) =
      some (42, 2, [(0, 3)]) := by decide

/-- V-I11: an open and empty channel. -/
theorem test_input_waits :
    after (step (inputs [] .notReady (loaded [3, 0, 99]))) (fun t => (t.pc, t.trace, t.status, t.pendingStep)) =
      some (0, [], .ready, true) := by decide

/-- V-I7. -/
theorem test_output_literal : after (step (loaded [104, -7, 99])) (fun t => (t.output, t.pc)) = some ([-7], 2) := by decide

/-- V-I10. -/
theorem test_output_no_capability :
    after (step (outputs (.error .noCapability) (loaded [104, 1, 99]))) (fun t => (t.fault, t.output, t.pc)) =
      some (some ⟨.ioError, 0, some 104, none, some (.output, .noCapability)⟩, [], 0) := by decide

/-- S3 (conflict C1): Pointer mode reads cell 0. -/
theorem test_adjustRelativeBase_pointer : after (step (loaded [9, 0, 99])) (fun t => (t.rb, t.pc)) = some (9, 2) := by
  decide

/-- V-R2, its second step: the operand is resolved with the old base. -/
theorem test_adjustRelativeBase_relative :
    after (step ({ loaded [109, 3, 209, 1, 99] with pc := 2, rb := 3 })) (fun t => t.rb) = some 102 := by decide

/-- The example of R90. -/
theorem test_end : after (step (loaded [99])) (fun t => (t.status, t.pc, t.trace, t.memLen)) =
    some (.halted, 0, [(0, 99)], 1) := by decide

/-! ### Faults -/

/-- V-F3. -/
theorem test_negative_read :
    after (step (loaded [1, -1, 0, 0, 99])) (fun t => (t.fault, t.status, t.pc, t.trace)) =
      some (some ⟨.addressError, 0, some 1, some (-1), none⟩, .faulted, 0, [(0, 1)]) := by decide

/-- V-F9: the value of the port is lost. -/
theorem test_negative_input_target :
    after (step (inputs [.value 5] .notReady (loaded [3, -1, 99]))) (fun t => (t.fault, t.inPort.script)) =
      some (some ⟨.addressError, 0, some 3, some (-1), none⟩, []) := by decide

/-- V-F7, its second step: the fetch faults and logs nothing. -/
theorem test_negative_fetch :
    after (step ((loaded [1105, 1, -7, 99]).setPc (-7))) (fun t => (t.fault, t.pc, t.trace)) =
      some (some ⟨.addressError, -7, none, some (-7), none⟩, -7, []) := by decide

/-- V-X14: the empty image. -/
theorem test_empty_image : after (step State.reset) (fun t => (t.fault, t.memLen, t.trace)) =
    some (some ⟨.unknownOpcode, 0, some 0, none, none⟩, 1, []) := by decide

/-- V-X15. -/
theorem test_value_target_faults : after (step (loaded [11101, 1, 1, 0, 99])) (fun t => (t.fault, t.trace)) =
    some (some ⟨.writeModeError, 0, some 11101, none, none⟩, [(0, 11101)]) := by decide

/-- V-F10: the wrapped Relative sum. -/
theorem test_relative_sum_wraps :
    after (step { loaded [109, B - 1, 2101, 0, 1, 5, 99] with pc := 2, rb := B - 1 }) (fun t => t.fault) =
      some (some ⟨.addressError, 2, some 2101, some B, none⟩) := by decide

/-- MEM_CAP: the first address beyond it (R32). -/
theorem test_capacity : after (step (capped 3 (loaded [4, 3, 99]))) (fun t => t.fault) =
    some (some ⟨.capacityError, 0, some 4, some 3, none⟩) := by decide

/-! ### Host commands and pipelines -/

/-- R110: before the first LOAD nothing but LOAD is accepted, and the machine takes no step. -/
theorem test_before_load :
    (command .run State.beforeLoad).2 = .refused ∧ (command (.peek 0) State.beforeLoad).2 = .refused ∧
      (command (.load [99]) State.beforeLoad).1.status = .ready ∧ step State.beforeLoad = .refused .notLoaded :=
  ⟨by decide, by decide, by decide, rfl⟩

/-- V-I11 stepped by STEP: it waits, RESET is kept out (R111), and the step that ends the wait reports (R114). -/
def waiting : State := (command .step (inputs [.notReady, .value 6] .notReady (loaded [3, 0, 99]))).1

theorem test_step_waits_and_reports :
    (command (.reset .full) waiting).2 = .refused ∧ (proceed waiting).2 = .stepped .ready 2 none ∧
      (proceed waiting).1.mem.read 0 = 6 := by decide

/-- The block waiting as above, its port answering still that it is not ready. -/
def stillWaiting : State := inputs [] .notReady waiting

/-- R97, R112: SETPC is accepted while a STEP waits, and nothing runs until the port answers. -/
theorem test_setPc_while_waiting :
    (command (.setPc 2) stillWaiting).2 = .done ∧
      after (step (command (.setPc 2) stillWaiting).1) (fun t => (t.pc, t.waiting, t.trace)) =
        some (2, some .input, []) := ⟨by decide, by decide⟩

/-- R70: then the step is the one at `pc`, here `End`, which takes nothing from the port. -/
theorem test_setPc_while_waiting_then_step :
    after (step (command (.setPc 2) waiting).1) (fun t => (t.status, t.trace, t.inPort.script)) =
      some (.halted, [(2, 99)], [.value 6]) := by decide

/-- R44, R71, R93: a cell that POKE writes while a STEP waits is the cell fetched when the port answers. -/
theorem test_poke_while_waiting :
    after (step (command (.poke 0 99) waiting).1) (fun t => (t.pc, t.status, t.trace)) = some (0, .halted, [(0, 99)]) := by
  decide

/-- R117, R160: LOAD is accepted while a STEP waits, and execution then begins at START_ADDRESS, though the port of the
earlier block is not ready. -/
theorem test_load_while_waiting :
    (command (.load [104, 7, 99]) stillWaiting).2 = .done ∧
      (command (.load [104, 7, 99]) stillWaiting).1.pendingStep = false ∧
      after (step (command (.load [104, 7, 99]) stillWaiting).1) (fun t => (t.pc, t.output)) = some (2, [7]) := by decide

/-- R97: a waiting Output whose source POKE has spoilt does not fault before its port answers. -/
theorem test_waiting_output_does_not_fault :
    after (step (command (.poke 1 (-1)) (command .step (outputs .notReady (loaded [4, 0, 99]))).1).1)
      (fun t => (t.status, t.waiting)) = some (.ready, some .output) := by decide

/-- R113: what RUN returns on Halt, and on Fault with the record (V-X1). -/
theorem test_run_returns :
    (runCommand 5 (loaded [1105, 1, 4, 0, 99])).2 = .ended .halted none ∧
      (runCommand 5 (loaded [0])).2 = .ended .faulted (some ⟨.unknownOpcode, 0, some 0, none, none⟩) := by decide

/-- V-M11. -/
theorem test_peek_grows :
    ((command (.peek 5) (loaded [1, 2, 3])).2, (command (.peek 5) (loaded [1, 2, 3])).1.memLen) = (.word 0, 6) := by decide

/-- V-M11. -/
theorem test_poke_new : (command (.poke 8 4) (loaded [1, 2, 3])).2 = .previous none := by decide

/-- V-F2. -/
theorem test_poke_negative :
    command (.poke (-1) 5) (loaded [1]) = (loaded [1], .accessError .addressError (some (-1))) := by decide

/-- V-R4: RESET(MemOnly) keeps the base and the trace. -/
theorem test_reset_memOnly :
    let s := (command (.reset .memOnly) { loaded [109, 19, 99] with mem := [], rb := 19, pc := 2, status := .halted }).1
    (s.rb, s.pc, s.status, s.mem.read 1) = (19, 2, .ready, 19) := by decide

/-- V-X21: SETPC leaves Halted and not Faulted. -/
theorem test_setPc_admission :
    (command (.setPc 0) ((loaded [99]).setStatus .halted)).2 = .done ∧
      (command (.setPc 0) ((loaded [99]).setStatus .faulted)).2 = .refused := by decide

/-- V-I12, its two instances joined by an unbounded channel. -/
def pipe (cap : Option Nat) : Pipeline :=
  ⟨[loaded [104, 5, 104, 6, 99], loaded [3, 11, 3, 12, 1, 11, 12, 11, 4, 11, 99]], [⟨[], [], cap, false⟩]⟩

/-- V-I12: what the first instance sends is what the channel then holds. -/
theorem test_channel_send : ((pipe none).stepAt 0).channels = [⟨[5], [], none, false⟩] := by decide

/-- V-I12: an empty channel makes the reader wait. -/
theorem test_channel_empty : (((pipe none).stepAt 1).stages.map fun s => s.pc) = [0, 0] := by decide

/-! ### Witnesses: concrete states and operands that meet all hypotheses of a statement -/

theorem witness_ArithmeticWrapsOrTraps_traps :
    (add64 = add64 ∧ (9223372036854775808 : Int) = (B - 1).toInt + (1 : Word).toInt) ∧
      (trapping (loaded [])).config.ovfTraps = true ∧ (2 ^ 63 : Int) ≤ 9223372036854775808 :=
  ⟨⟨rfl, by decide⟩, by decide, by decide⟩

theorem witness_ArithmeticWrapsOrTraps_wraps :
    (mul64 = mul64 ∧ (-9223372036854775808 : Int) = B.toInt * (1 : Word).toInt) ∧
      ¬ ((trapping (loaded [])).config.ovfTraps = true ∧
        ((-9223372036854775808 : Int) < -2 ^ 63 ∨ (2 ^ 63 : Int) ≤ -9223372036854775808)) :=
  ⟨⟨rfl, by decide⟩, by decide⟩

theorem witness_MemReadFollowsItsRule_negative : (-1 : Word).toInt < 0 := by decide

theorem witness_MemReadFollowsItsRule_capacity :
    0 ≤ (3 : Word).toInt ∧ (capped 3 (loaded [1])).config.memCap = some 3 ∧ 3 ≤ (3 : Word).toNat := by decide

theorem witness_MemReadFollowsItsRule_reads :
    0 ≤ (2 : Word).toInt ∧ (∀ cap, (capped 3 (loaded [1])).config.memCap = some cap → (2 : Word).toNat < cap) :=
  ⟨by decide, fun _ h => by cases h; decide⟩

/-- The invariant of a loaded machine, spelled out. -/
theorem inv_loaded_end : Inv (loaded [99]) := by
  refine ⟨by decide, by decide, by decide, by decide, trivial, ?_, .inl rfl⟩
  show Status.ready ≠ .faulted
  decide

theorem witness_MemReadFollowsItsRule_grown :
    0 ≤ (B - 1).toInt ∧ (∀ cap, (loaded [99]).config.memCap = some cap → (B - 1).toNat < cap) ∧ Inv (loaded [99]) ∧
      (loaded [99]).memLen ≤ (B - 1).toNat :=
  ⟨by decide, fun _ h => (by cases h), inv_loaded_end, by decide⟩

theorem witness_MemWriteFollowsItsRule_negative : (loaded [1]).mem.wf = true ∧ B.toInt < 0 := by decide

theorem witness_MemWriteFollowsItsRule_capacity :
    (capped 0 (loaded [])).mem.wf = true ∧ 0 ≤ (0 : Word).toInt ∧ (capped 0 (loaded [])).config.memCap = some 0 ∧
      0 ≤ (0 : Word).toNat := by decide

theorem witness_MemWriteFollowsItsRule_writes :
    (loaded [1]).mem.wf = true ∧ 0 ≤ (0 : Word).toInt ∧
      (∀ cap, (loaded [1]).config.memCap = some cap → (0 : Word).toNat < cap) :=
  ⟨by decide, by decide, fun _ h => (by cases h)⟩

theorem witness_ValueOfEachMode_sum : SumOk (loaded [1]) 3 (-3) := by unfold SumOk; decide

theorem witness_ValueOfEachMode_overflow : ¬ SumOk { trapping (loaded [1]) with rb := B - 1 } 1 (B - 1) := by
  unfold SumOk; decide

theorem witness_TargetOfEachMode_sum : SumOk (trapping (loaded [1])) (B - 1) 0 := by unfold SumOk; decide

theorem witness_TargetOfEachMode_overflow : ¬ SumOk { trapping (loaded [1]) with rb := B } (-1) B := by
  unfold SumOk; decide

theorem witness_AddStoresTheSum :
    FourCellOk { loaded [21001, 5, 3, 0, 99, 7] with rb := 9 } .pointer .value .relative 9 ∧
      SumOk { loaded [21001, 5, 3, 0, 99, 7] with rb := 9 } 7 3 := by
  dsimp only [FourCellOk, SourceOk, TargetOk, TargetResolves, FetchOk, AccessOk, SumOk]
  decide

theorem witness_MulStoresTheProduct :
    FourCellOk (trapping (loaded [2, 5, 5, 5, 99, 3])) .pointer .pointer .pointer 5 ∧
      ProductOk (trapping (loaded [2, 5, 5, 5, 99, 3])) 3 3 := by
  dsimp only [FourCellOk, SourceOk, TargetOk, TargetResolves, FetchOk, AccessOk, SumOk, ProductOk]
  decide

theorem witness_LessThanStoresOneOrZero :
    FourCellOk { loaded [1207, 1, 100, 32] with rb := 2 } .relative .value .pointer 32 := by
  dsimp only [FourCellOk, SourceOk, TargetOk, TargetResolves, FetchOk, AccessOk, SumOk]
  decide

theorem witness_EqualToStoresOneOrZero : FourCellOk (loaded [8, 0, 0, 0, 99]) .pointer .pointer .pointer 0 := by
  dsimp only [FourCellOk, SourceOk, TargetOk, TargetResolves, FetchOk, AccessOk, SumOk]
  decide

theorem witness_InputStoresTheDeliveredWord :
    let s := inputs [.value B] .notReady (loaded [3, 5, 99, 0, 0, 0])
    AccessOk s s.pc ∧ pollIn s.inPort = (.value B, ⟨[], .always .notReady, 0⟩) ∧ TargetOk s 1 .pointer 5 ∧
      SumOk s s.pc 2 := by
  dsimp only [TargetOk, TargetResolves, FetchOk, AccessOk, SumOk]
  decide

theorem witness_OutputSendsItsOperand :
    let s := { loaded [204, -1, 99] with rb := 3 }
    AccessOk s s.pc ∧ SourceOk s 1 .relative ∧ pollOut s.outPort = (.accepted, ⟨[], .accepted⟩) ∧ SumOk s s.pc 2 := by
  dsimp only [SourceOk, FetchOk, AccessOk, SumOk]
  decide

theorem witness_JumpIfNotZero_taken :
    let s := loaded [1105, -1, B - 1]
    AccessOk s s.pc ∧ SourceOk s 1 .value ∧ sourceValue s 1 .value ≠ 0 ∧ SourceOk s 2 .value := by
  dsimp only [SourceOk, FetchOk, AccessOk, SumOk]
  decide

theorem witness_JumpIfNotZero_not_taken :
    let s := loaded [5, 6, -1, 99]
    AccessOk s s.pc ∧ SourceOk s 1 .pointer ∧ sourceValue s 1 .pointer = 0 ∧ SumOk s s.pc 3 := by
  dsimp only [SourceOk, FetchOk, AccessOk, SumOk]
  decide

theorem witness_JumpIfZero_taken :
    let s := loaded [6, 5, 6, 0, 99, 0, 4]
    AccessOk s s.pc ∧ SourceOk s 1 .pointer ∧ sourceValue s 1 .pointer = 0 ∧ SourceOk s 2 .pointer := by
  dsimp only [SourceOk, FetchOk, AccessOk, SumOk]
  decide

theorem witness_JumpIfZero_not_taken :
    let s := loaded [1106, 3, 4, 99, 0]
    AccessOk s s.pc ∧ SourceOk s 1 .value ∧ sourceValue s 1 .value ≠ 0 ∧ SumOk s s.pc 3 := by
  dsimp only [SourceOk, FetchOk, AccessOk, SumOk]
  decide

theorem witness_AdjustRelativeBaseAddsItsOperand :
    let s := { trapping (loaded [109, -1, 99]) with rb := B + 1 }
    AccessOk s s.pc ∧ SourceOk s 1 .value ∧ SumOk s s.rb (sourceValue s 1 .value) ∧ SumOk s s.pc 2 := by
  dsimp only [SourceOk, FetchOk, AccessOk, SumOk]
  decide

theorem witness_EndHalts : AccessOk (capped 1 (loaded [99])) 0 := ⟨by decide, by decide⟩

theorem witness_StepRunsTheDecodedInstruction :
    let s := loaded [1002, 4, 3, 4, 33]
    s.status = .ready ∧ s.waiting = none ∧ AccessOk s s.pc ∧ decode (s.mem.read s.pc.toNat) = .ok (.mul .pointer .value .pointer) := by
  dsimp only [AccessOk]
  decide

theorem witness_StepRunsTheDecodedInstruction_waited :
    waiting.status = .ready ∧ waiting.waiting = some .input ∧ (pollIn waiting.inPort).1 ≠ .notReady ∧
      AccessOk waiting waiting.pc ∧ decode (waiting.mem.read waiting.pc.toNat) = .ok (.input .pointer .pointer .pointer) :=
  ⟨by decide, by decide, by decide, ⟨by decide, by decide⟩, by decide⟩

theorem witness_StepRunsTheDecodedInstruction_waited_output :
    let s := { loaded [104, 1, 99] with waiting := some .output }
    s.status = .ready ∧ s.waiting = some .output ∧ (pollOut s.outPort).1 ≠ .notReady ∧ AccessOk s s.pc ∧
      decode (s.mem.read s.pc.toNat) = .ok (.output .value .pointer .pointer) := by
  dsimp only [AccessOk]
  decide

theorem witness_StoppedMachineTakesNoStep :
    ((loaded [99]).setStatus .halted).status = .halted ∧ ((loaded [0]).setStatus .faulted).status = .faulted ∧
      State.beforeLoad.status = .unloaded := by decide

theorem witness_AdmittedStep : (loaded []).status = .ready ∧ ((loaded []).setStatus .running).status = .running := by decide

theorem witness_RunStepsAsStepDoes : (loaded [3, 0, 99]).status = .ready := by decide

theorem witness_FetchFaults_negative : portAnswers ((loaded [99]).setPc (-1)) = true ∧
    AccessFails ((loaded [99]).setPc (-1)) (-1) .addressError := ⟨rfl, .inl ⟨by decide, rfl⟩⟩

theorem witness_FetchFaults_capacity : portAnswers (capped 0 (loaded [])) = true ∧
    AccessFails (capped 0 (loaded [])) 0 .capacityError := ⟨rfl, .inr ⟨by decide, by decide, rfl⟩⟩

theorem witness_DecodeFaults_opcode :
    (loaded [0]).status = .ready ∧ portAnswers (loaded [0]) = true ∧ AccessOk (loaded [0]) 0 ∧
      decode ((loaded [0]).mem.read 0) = .error .unknownOpcode :=
  ⟨by decide, rfl, ⟨by decide, by decide⟩, by decide⟩

theorem witness_DecodeFaults_mode :
    (loaded [3003]).status = .ready ∧ portAnswers (loaded [3003]) = true ∧ AccessOk (loaded [3003]) 0 ∧
      decode ((loaded [3003]).mem.read 0) = .error .unknownMode :=
  ⟨by decide, rfl, ⟨by decide, by decide⟩, by decide⟩

theorem witness_ValueModeTargetFaults_result :
    let s := loaded [11107, 1, 2, 0, 99]
    AccessOk s s.pc ∧ SourceOk s 1 .value ∧ SourceOk s 2 .value ∧ FetchOk s 3 := by
  dsimp only [SourceOk, FetchOk, AccessOk, SumOk]
  decide

theorem witness_ValueModeTargetFaults_input :
    let s := inputs [.value 5] .notReady (loaded [103, 0, 99])
    AccessOk s s.pc ∧ pollIn s.inPort = (.value 5, ⟨[], .always .notReady, 0⟩) ∧ FetchOk s 1 := by
  dsimp only [FetchOk, AccessOk, SumOk]
  decide

theorem witness_FirstSourceFaults_operand :
    let s := loaded [1, -1, 0, 0, 99]
    AccessOk s s.pc ∧ SourceFails s 1 .pointer (-1) .addressError [1] := by
  dsimp only [SourceFails, TargetResolves, AccessFails, FetchOk, AccessOk, SumOk]
  decide

theorem witness_FirstSourceFaults_cell :
    let s := capped 1 (loaded [104])
    AccessOk s s.pc ∧ SourceFails s 1 .value 1 .capacityError [] := by
  dsimp only [SourceFails, TargetResolves, AccessFails, FetchOk, AccessOk, SumOk]
  decide

theorem witness_SecondSourceFaults_result :
    let s := { loaded [2101, 0, 1, 5, 99] with rb := -2 }
    AccessOk s s.pc ∧ SourceOk s 1 .value ∧ SourceFails s 2 .relative (-1) .addressError [2] := by
  dsimp only [SourceFails, SourceOk, TargetResolves, AccessFails, FetchOk, AccessOk, SumOk]
  decide

theorem witness_SecondSourceFaults_jumpIfNotZero :
    let s := loaded [105, 1, -1, 99]
    AccessOk s s.pc ∧ SourceOk s 1 .value ∧ sourceValue s 1 .value ≠ 0 ∧
      SourceFails s 2 .pointer (-1) .addressError [2] := by
  dsimp only [SourceFails, SourceOk, TargetResolves, AccessFails, FetchOk, AccessOk, SumOk]
  decide

theorem witness_SecondSourceFaults_jumpIfZero :
    let s := loaded [106, 0, -1, 99]
    AccessOk s s.pc ∧ SourceOk s 1 .value ∧ sourceValue s 1 .value = 0 ∧
      SourceFails s 2 .pointer (-1) .addressError [2] := by
  dsimp only [SourceFails, SourceOk, TargetResolves, AccessFails, FetchOk, AccessOk, SumOk]
  decide

theorem witness_TargetAddressFaults_sum :
    let s := { loaded [21101, 1, 1, 0, 99] with rb := -5 }
    AccessOk s s.pc ∧ AccessFails s (-5) .addressError ∧ SumOk s (sourceValue s 1 .value) (sourceValue s 2 .value) ∧
      SourceOk s 1 .value ∧ SourceOk s 2 .value ∧ TargetResolves s 3 .relative (-5) := by
  dsimp only [AccessFails, SourceOk, TargetResolves, FetchOk, AccessOk, SumOk]
  decide

theorem witness_TargetAddressFaults_product :
    let s := capped 5 (loaded [1102, 1, 1, 5, 99])
    AccessOk s s.pc ∧ AccessFails s 5 .capacityError ∧ ProductOk s (sourceValue s 1 .value) (sourceValue s 2 .value) ∧
      SourceOk s 1 .value ∧ SourceOk s 2 .value ∧ TargetResolves s 3 .pointer 5 := by
  dsimp only [AccessFails, SourceOk, TargetResolves, FetchOk, AccessOk, SumOk, ProductOk]
  decide

theorem witness_TargetAddressFaults_input :
    let s := inputs [.value 5] .notReady (loaded [3, -1, 99])
    AccessOk s s.pc ∧ AccessFails s (-1) .addressError ∧
      pollIn s.inPort = (.value 5, ⟨[], .always .notReady, 0⟩) ∧ TargetResolves s 1 .pointer (-1) := by
  dsimp only [AccessFails, TargetResolves, FetchOk, AccessOk, SumOk]
  decide

theorem witness_OverflowTraps_sum :
    let s := trapping (loaded [1101, B - 1, 1, 5, 99, 0])
    AccessOk s s.pc ∧ SourceOk s 1 .value ∧ ¬ SumOk s (sourceValue s 1 .value) (sourceValue s 2 .value) ∧
      SourceOk s 2 .value ∧ TargetResolves s 3 .pointer 5 := by
  dsimp only [SourceOk, TargetResolves, FetchOk, AccessOk, SumOk]
  decide

theorem witness_OverflowTraps_product :
    let s := trapping (loaded [1102, 4294967296, 4294967296, 5, 99, 7])
    AccessOk s s.pc ∧ SourceOk s 1 .value ∧ ¬ ProductOk s (sourceValue s 1 .value) (sourceValue s 2 .value) ∧
      SourceOk s 2 .value ∧ TargetResolves s 3 .pointer 5 := by
  dsimp only [SourceOk, TargetResolves, FetchOk, AccessOk, SumOk, ProductOk]
  decide

theorem witness_OverflowTraps_base :
    let s := { trapping (loaded [109, 1, 99]) with rb := B - 1 }
    AccessOk s s.pc ∧ SourceOk s 1 .value ∧ ¬ SumOk s s.rb (sourceValue s 1 .value) := by
  dsimp only [SourceOk, FetchOk, AccessOk, SumOk]
  decide

theorem witness_PortErrorsFault_input :
    let s := inputs [] (.error .readFailure) (loaded [3, 0, 99])
    AccessOk s s.pc ∧ pollIn s.inPort = (.error .readFailure, s.inPort) := by
  dsimp only [AccessOk]
  decide

theorem witness_PortErrorsFault_output :
    let s := outputs (.error .channelClosed) (loaded [4, 0, 99])
    AccessOk s s.pc ∧ SourceOk s 1 .pointer ∧ pollOut s.outPort = (.error .channelClosed, s.outPort) := by
  dsimp only [SourceOk, FetchOk, AccessOk, SumOk]
  decide

theorem witness_NotReadyPort_input :
    let s := inputs [.notReady, .value 6] .notReady (loaded [3, 0, 99])
    AccessOk s s.pc ∧ pollIn s.inPort = (.notReady, ⟨[.value 6], .always .notReady, 0⟩) := by
  dsimp only [AccessOk]
  decide

theorem witness_NotReadyPort_output :
    let s := outputs .notReady (loaded [104, 1, 99])
    AccessOk s s.pc ∧ SourceOk s 1 .value ∧ pollOut s.outPort = (.notReady, s.outPort) := by
  dsimp only [SourceOk, FetchOk, AccessOk, SumOk]
  decide

theorem witness_FaultsArePrecise :
    ∃ t f, step (loaded [1, -1, 0, 0, 99]) = .next t ∧ t.status = .faulted ∧ t.fault = some f :=
  ⟨_, _, rfl, rfl, rfl⟩

theorem witness_FaultsArePrecise_overflow :
    ∃ t f, step (trapping (loaded [1101, B - 1, 1, 5, 99, 0])) = .next t ∧ t.status = .faulted ∧ t.fault = some f ∧
      f.kind = .arithOverflow := ⟨_, _, rfl, rfl, rfl, rfl⟩

theorem witness_FrameOfStoringInstructions :
    (loaded [1101, 3, 4, 20, 99]).mem.wf = true ∧
      ∃ t, exec (.add .value .value .pointer) (loaded [1101, 3, 4, 20, 99]) = .next t := ⟨by decide, _, rfl⟩

theorem witness_FrameOfInput :
    (inputs [.value 77] .notReady (loaded [3, 7, 99])).mem.wf = true ∧
      ∃ t, exec (.input .pointer .pointer .pointer) (inputs [.value 77] .notReady (loaded [3, 7, 99])) = .next t :=
  ⟨by decide, _, rfl⟩

theorem witness_FrameOfInstructionsThatStoreNothing :
    ∃ t, exec (.jumpIfZero .value .value .pointer) (loaded [1106, 0, 4, 0, 99]) = .next t := ⟨_, rfl⟩

theorem witness_OnlyAdjustRelativeBaseChangesRb : ∃ t, step (loaded [109, 19, 99]) = .next t ∧ t.rb ≠ (0 : Word) := by
  refine ⟨_, rfl, ?_⟩
  decide

theorem witness_OutputOnlyGrowsByOutput :
    ∃ t, step (loaded [104, -7, 99]) = .next t ∧ t.output = (loaded [104, -7, 99]).output ++ [-7] := ⟨_, rfl, rfl⟩

theorem witness_OneTraceEntry_executed : ∃ t, step (loaded [99]) = .next t ∧ t.trace = [(0, 99)] := ⟨_, rfl, rfl⟩

theorem witness_OneTraceEntry_decode_fault : ∃ t, step (loaded [0]) = .next t ∧ t.trace = [] := ⟨_, rfl, rfl⟩

theorem witness_OneTraceEntry_input_waits :
    ∃ t, step (inputs [] .notReady (loaded [3, 0, 99])) = .next t ∧
      SameBlock (inputs [] .notReady (loaded [3, 0, 99])) t ∧
      decode ((loaded [3, 0, 99]).mem.read 0) = .ok (.input .pointer .pointer .pointer) ∧
      (pollIn (inputs [] .notReady (loaded [3, 0, 99])).inPort).1 = .notReady := by
  refine ⟨_, rfl, ⟨rfl, rfl, rfl, rfl, rfl, rfl, rfl, rfl, rfl, rfl⟩, ?_, ?_⟩ <;> decide

theorem witness_OneTraceEntry_output_waits :
    ∃ t, step (outputs .notReady (loaded [104, 1, 99])) = .next t ∧
      SameBlock (outputs .notReady (loaded [104, 1, 99])) t ∧
      decode ((loaded [104, 1, 99]).mem.read 0) = .ok (.output .value .pointer .pointer) ∧
      (pollOut (outputs .notReady (loaded [104, 1, 99])).outPort).1 = .notReady := by
  refine ⟨_, rfl, ⟨rfl, rfl, rfl, rfl, rfl, rfl, rfl, rfl, rfl, rfl⟩, ?_, ?_⟩ <;> decide

theorem witness_HostOnlyStateIsInvisible :
    loaded [99] ≠ loaded [99, 0] ∧ hideHostOnly (loaded [99]) = hideHostOnly (loaded [99, 0]) := by decide

theorem witness_EveryStepKeepsTheInvariant : Inv (loaded [99]) ∧ ∃ t, step (loaded [99]) = .next t :=
  ⟨inv_loaded_end, _, rfl⟩

theorem witness_MemOnlyReset : ((loaded [99]).setStatus .faulted).status ≠ .unloaded ∧
    ((loaded [99]).setStatus .faulted).status ≠ .running ∧ (loaded [99]).pendingStep = false := by decide

theorem witness_LoadConstructsTheBlock :
    State.beforeLoad.status ≠ .running ∧ stillWaiting.status ≠ .running ∧ stillWaiting.waiting = some .input ∧
      ((loaded [1]).setStatus .halted).status ≠ .unloaded ∧ ((loaded [1]).setStatus .halted).status ≠ .running ∧
      (loaded [1]).pendingStep = false := by decide

theorem witness_CommandsAreAdmittedByStatus :
    ((loaded [1]).setStatus .halted).status ≠ .ready ∧ ((loaded [1]).setStatus .running).status = .running ∧
      ((loaded [1]).setStatus .faulted).status = .faulted ∧ waiting.pendingStep = true ∧ waiting.status = .ready := by
  decide

theorem witness_StepCommandTakesOneStep :
    (loaded [99]).status = .ready ∧ ∃ t, step (loaded [99]) = .next t := ⟨by decide, _, rfl⟩

theorem witness_StepCommandTakesOneStep_waited :
    waiting.status = .ready ∧ waiting.pendingStep = true ∧ ∃ t, step waiting = .next t := ⟨by decide, by decide, _, rfl⟩

theorem witness_PeekReturnsWhatPokeWrote :
    (loaded [1, 2, 3]).status ≠ .unloaded ∧ (loaded [1, 2, 3]).status ≠ .running ∧ (loaded [1, 2, 3]).mem.wf = true ∧ AccessOk (loaded [1, 2, 3]) (B - 1) ∧
      (-1 : Word).toInt < 0 := 
  ⟨by decide, by decide, by decide, ⟨by decide, by decide⟩, by decide⟩

theorem witness_CommandsKeepTheInvariant :
    Inv (loaded [99]) ∧ (∀ img, Command.load [1, 2] = .load img → img.length ≤ 2 ^ 63) :=
  ⟨inv_loaded_end, fun _ h => by cases h; decide⟩

theorem witness_ChannelsDeliverInOrder : InOrder (pipe none) := by
  intro k c s hc hs
  match k with
  | 0 => cases hc; cases hs; rfl
  | _ + 1 => cases hc

/-- The pipeline after its writer's first step: a Word queued, and its reader at an Input. -/
theorem witness_HandsOverOldest_queued :
    ((pipe none).stepAt 0).channels[0]? = some ⟨[5], [], none, false⟩ ∧
      (((pipe none).stepAt 0).stages[1]?).map atInput = some true ∧
      (((pipe none).stepAt 0).stepAt 1).channels = [⟨[], [5], none, false⟩] := by decide

/-- The same pipeline with its channel closed while a Word is queued (log entry 20): the Word is still handed over. -/
theorem witness_HandsOverOldest_closed_and_queued :
    (((pipe none).stepAt 0).close 0).channels[0]? = some ⟨[5], [], none, true⟩ ∧
      ((((pipe none).stepAt 0).close 0).stages[1]?).map atInput = some true ∧
      ((((pipe none).stepAt 0).close 0).stepAt 1).channels = [⟨[], [5], none, true⟩] := by decide

theorem witness_HandsOverOldest_not_at_input :
    (Pipeline.mk [loaded [99], loaded [99]] [⟨[5], [], none, false⟩]).channels[0]? = some ⟨[5], [], none, false⟩ ∧
      atInput (loaded [99]) = false := by decide

theorem witness_HandsOverOldest_empty :
    (pipe (some 0)).channels[0]? = some ⟨[], [], some 0, false⟩ ∧ ((pipe (some 0)).close 0).channels[0]? =
      some ⟨[], [], some 0, true⟩ := by decide

theorem witness_ChannelsStayWithinCapacity : WithinCapacity (pipe (some 0)) := by
  intro c hc n hn
  rw [List.mem_singleton.1 hc]
  exact Nat.zero_le _

theorem witness_TargetCellFaults_result :
    let s := capped 3 (loaded [1101, 1, 1])
    AccessOk s s.pc ∧ SourceOk s 1 .value ∧ SourceOk s 2 .value ∧ CellFails s 3 3 .capacityError := by
  dsimp only [SourceOk, CellFails, AccessFails, FetchOk, AccessOk, SumOk]
  decide

theorem witness_TargetCellFaults_input :
    let s := inputs [.value 5] .notReady { loaded [] with pc := B - 1, mem := [(9223372036854775807, 3)] }
    AccessOk s s.pc ∧ pollIn s.inPort = (.value 5, ⟨[], .always .notReady, 0⟩) ∧ CellFails s 1 B .addressError := by
  dsimp only [CellFails, AccessFails, AccessOk, SumOk]
  decide

/-- `pc` at the last address, OVF_TRAPS = true: the address of operand cell 1 overflows. -/
theorem witness_AddressSumOverflowFaults_first_cell :
    let s := { trapping (loaded []) with pc := B - 1, mem := [(9223372036854775807, 109)] }
    AccessOk s s.pc ∧ OperandOverflows s 1 .value [] := by
  dsimp only [OperandOverflows, FetchOk, AccessOk, SumOk]
  decide

/-- V-F10 with OVF_TRAPS = true. -/
theorem witness_AddressSumOverflowFaults_second_relative :
    let s := { trapping (loaded [109, B - 1, 2101, 0, 1, 5, 99]) with pc := 2, rb := B - 1 }
    AccessOk s s.pc ∧ SourceOk s 1 .value ∧ OperandOverflows s 2 .relative [4] := by
  dsimp only [OperandOverflows, SourceOk, FetchOk, AccessOk, SumOk]
  decide

theorem witness_AddressSumOverflowFaults_taken_jumps :
    let s := { trapping (loaded [2105, 1, 1]) with rb := B - 1 }
    AccessOk s s.pc ∧ SourceOk s 1 .value ∧ sourceValue s 1 .value ≠ 0 ∧ OperandOverflows s 2 .relative [2] ∧
      SourceOk { s with mem := [(0, 2106), (2, 1)] } 1 .value ∧
      sourceValue { s with mem := [(0, 2106), (2, 1)] } 1 .value = 0 ∧
      OperandOverflows { s with mem := [(0, 2106), (2, 1)] } 2 .relative [2] := by
  dsimp only [OperandOverflows, SourceOk, FetchOk, AccessOk, SumOk]
  decide

theorem witness_AddressSumOverflowFaults_target :
    let s := { trapping (loaded [21101, 1, 1, -1]) with rb := B }
    AccessOk s s.pc ∧ SourceOk s 1 .value ∧ SourceOk s 2 .value ∧ OperandOverflows s 3 .relative [3] := by
  dsimp only [OperandOverflows, SourceOk, FetchOk, AccessOk, SumOk]
  decide

theorem witness_AddressSumOverflowFaults_input :
    let s := inputs [.value 5] .notReady { trapping (loaded [203, 1]) with rb := B - 1 }
    AccessOk s s.pc ∧ pollIn s.inPort = (.value 5, ⟨[], .always .notReady, 0⟩) ∧
      OperandOverflows s 1 .relative [1] := by
  dsimp only [OperandOverflows, FetchOk, AccessOk, SumOk]
  decide

/-- An `Add`, `Mul`, `LessThan` or `EqualTo` whose four cells are the last of memory (its opcode cell is read as given). -/
theorem witness_PcUpdateOverflowFaults_result :
    let s := { trapping (loaded []) with pc := B - 4, mem := [(9223372036854775804, 1101)] }
    AccessOk s s.pc ∧ SumOk s (sourceValue s 1 .value) (sourceValue s 2 .value) ∧
      ProductOk s (sourceValue s 1 .value) (sourceValue s 2 .value) ∧ SourceOk s 1 .value ∧ SourceOk s 2 .value ∧
      TargetOk s 3 .pointer 0 ∧ ¬ SumOk s s.pc 4 := by
  dsimp only [TargetOk, TargetResolves, SourceOk, FetchOk, AccessOk, SumOk, ProductOk]
  decide

theorem witness_PcUpdateOverflowFaults_input :
    let s := inputs [.value 7] .notReady { trapping (loaded []) with pc := B - 2, mem := [(9223372036854775806, 3)] }
    AccessOk s s.pc ∧ pollIn s.inPort = (.value 7, ⟨[], .always .notReady, 0⟩) ∧ TargetOk s 1 .pointer 0 ∧
      ¬ SumOk s s.pc 2 := by
  dsimp only [TargetOk, TargetResolves, FetchOk, AccessOk, SumOk]
  decide

theorem witness_PcUpdateOverflowFaults_base_and_output :
    let s := { trapping (loaded []) with pc := B - 2, mem := [(9223372036854775806, 109)] }
    AccessOk s s.pc ∧ SumOk s s.rb (sourceValue s 1 .value) ∧ (pollOut s.outPort).1 = .accepted ∧
      SourceOk s 1 .value ∧ ¬ SumOk s s.pc 2 := by
  dsimp only [SourceOk, FetchOk, AccessOk, SumOk]
  decide

theorem witness_PcUpdateOverflowFaults_jumpIfNotZero :
    let s := { trapping (loaded []) with pc := B - 3, mem := [(9223372036854775805, 1105)] }
    AccessOk s s.pc ∧ sourceValue s 1 .value = 0 ∧ SourceOk s 1 .value ∧ ¬ SumOk s s.pc 3 := by
  dsimp only [SourceOk, FetchOk, AccessOk, SumOk]
  decide

theorem witness_PcUpdateOverflowFaults_jumpIfZero :
    let s := { trapping (loaded []) with
      pc := B - 3, mem := [(9223372036854775805, 1106), (9223372036854775806, 1)] }
    AccessOk s s.pc ∧ sourceValue s 1 .value ≠ 0 ∧ SourceOk s 1 .value ∧ ¬ SumOk s s.pc 3 := by
  dsimp only [SourceOk, FetchOk, AccessOk, SumOk]
  decide

theorem witness_BeforeTheFirstLoad : State.beforeLoad.status = .unloaded ∧
    (∀ img, Command.run ≠ .load img) := ⟨by decide, fun _ h => by cases h⟩

theorem witness_RunReportsEachStep :
    (∃ t, step ((loaded [1105, 1, 4]).setStatus .running) = .next t ∧ t.status = .running) ∧
      (∃ t, step ((loaded [99]).setStatus .running) = .next t ∧ t.status = .halted) ∧
      (∃ t, step ((loaded [0]).setStatus .running) = .next t ∧ t.status = .faulted) :=
  ⟨⟨_, rfl, rfl⟩, ⟨_, rfl, rfl⟩, ⟨_, rfl, rfl⟩⟩

theorem witness_RunReturnsHowItEnded :
    (loaded [99]).status = .ready ∧ (runFor 1 { loaded [99] with status := .running }).status = .halted ∧
      (runFor 1 { loaded [0] with status := .running }).status = .faulted ∧ 1 ≤ 1 := by decide

theorem witness_OneTraceEntry_waits_on_input :
    ∃ t, step stillWaiting = .next t ∧ stillWaiting.waiting = some .input ∧
      (pollIn stillWaiting.inPort).1 = .notReady ∧ t.waiting ≠ none := ⟨_, rfl, by decide, by decide, by decide⟩

theorem witness_OneTraceEntry_waits_on_output :
    let s := { outputs .notReady (loaded [99]) with waiting := some .output }
    ∃ t, step s = .next t ∧ s.waiting = some .output ∧ (pollOut s.outPort).1 = .notReady ∧ t.waiting ≠ none :=
  ⟨_, rfl, by decide, by decide, by decide⟩

theorem witness_AWaitingStepHoldsTheBlock_input :
    stillWaiting.waiting = some .input ∧ stillWaiting.status = .ready ∧ (pollIn stillWaiting.inPort).1 = .notReady ∧
      Command.run ≠ .step ∧ ∀ img, Command.run ≠ .load img :=
  ⟨by decide, by decide, by decide, by decide, by simp⟩

theorem witness_AWaitingStepHoldsTheBlock_output :
    let s := { outputs .notReady (loaded [104, 1, 99]) with waiting := some .output }
    s.waiting = some .output ∧ s.status = .ready ∧ (pollOut s.outPort).1 = .notReady := by decide

end Sys2Proof.Tests
end

section
/-! PROOFS. The arithmetic of Words (spec/00_scope.md R6, R7): what `wrap64` is and when the checked operations trap. -/

namespace Sys2Proof.Machine

/-- A Word's integer is its own balanced remainder modulo 2^64, so `wrap64` decides congruence. -/
theorem eq_wrap64_iff_dvd (z : Int) (w : Word) : w = wrap64 z ↔ (2 ^ 64 : Int) ∣ w.toInt - z :=
  calc w = wrap64 z
      ↔ w.toInt = z.bmod (2 ^ 64) := by rw [wrap64, ← BitVec.toInt_inj, BitVec.toInt_ofInt]
    _ ↔ w.toInt.bmod (2 ^ 64) = z.bmod (2 ^ 64) := by rw [BitVec.toInt_bmod_cancel]
    _ ↔ ((2 ^ 64 : Nat) : Int) ∣ w.toInt - z := by
      rw [Int.bmod_eq_bmod_iff_bmod_sub_eq_zero, Int.dvd_iff_bmod_eq_zero]
    _ ↔ (2 ^ 64 : Int) ∣ w.toInt - z := by norm_num

theorem fitsWord_eq_false_iff (z : Int) : fitsWord z = false ↔ z < -2 ^ 63 ∨ 2 ^ 63 ≤ z := by
  rw [fitsWord, decide_eq_false_iff_not]
  omega

/-- Both checked operations end in `narrow` of the exact integer, so its two answers are theirs. -/
theorem narrow_traps_or_wraps (z : Int) (s : State) :
    (s.config.ovfTraps = true ∧ (z < -2 ^ 63 ∨ 2 ^ 63 ≤ z) → narrow z s = .raise ⟨.arithOverflow, none, none⟩ s) ∧
    (¬ (s.config.ovfTraps = true ∧ (z < -2 ^ 63 ∨ 2 ^ 63 ≤ z)) → narrow z s = .ok (wrap64 z) s) := by
  rw [← fitsWord_eq_false_iff]
  constructor
  · rintro ⟨htraps, hout⟩
    exact narrow_overflows htraps hout
  · intro h
    refine narrow_fits fun htraps => ?_
    simpa using fun hout => h ⟨htraps, hout⟩

/-- Settles O6: congruence modulo 2^64 determines `wrap64`, and the sum and the product are `narrow` of the exact
integer. -/
theorem arithmeticWrapsOrTraps : Obligations.ArithmeticWrapsOrTraps := by
  refine ⟨eq_wrap64_iff_dvd, ?_⟩
  rintro x y s op z (⟨rfl, rfl⟩ | ⟨rfl, rfl⟩)
  · exact narrow_traps_or_wraps (x.toInt + y.toInt) s
  · exact narrow_traps_or_wraps (x.toInt * y.toInt) s

end Sys2Proof.Machine
end

section
/-! PROOFS. The invariant of reachable states (spec/10_state.md R13, R14, R17, R18, R23): it holds at reset, and every step
keeps it. -/

namespace Sys2Proof.Machine

/-- The part of the invariant that speaks of memory. -/
structure MemoryOk (s : State) : Prop where
  wf : s.mem.wf = true
  listed : ∀ c ∈ s.mem, c.1 < s.memLen
  addressable : s.memLen ≤ 2 ^ 63
  image : s.image.length ≤ 2 ^ 63
  capacity : ∀ cap, s.config.memCap = some cap → s.memLen ≤ max cap s.image.length

/-- The part that speaks of the fault record: valid exactly when Faulted, and then naming `pc`. -/
def FaultRecordOk (s : State) : Prop :=
  (s.status = .faulted ↔ s.fault.isSome) ∧ ∀ f, s.fault = some f → f.addr = s.pc

theorem inv_iff {s : State} : Inv s ↔
    MemoryOk s ∧ FaultRecordOk s ∧ (s.waiting = none ∨ s.status = .ready ∨ s.status = .running) := by
  constructor
  · rintro ⟨hwf, hlisted, haddr, himage, hcap, hfault, hw⟩
    refine ⟨⟨hwf, hlisted, haddr, himage, fun cap hc => ?capacity⟩, ?fault, hw⟩
    case capacity => simpa [hc] using hcap
    case fault =>
      cases hf : s.fault with
      | none => exact ⟨iff_of_false (by simpa [hf] using hfault) (by simp [hf]), by simp [hf]⟩
      | some f =>
        obtain ⟨hs, hpc⟩ : s.status = .faulted ∧ f.addr = s.pc := by simpa [hf] using hfault
        exact ⟨iff_of_true hs (by simp [hf]), by simpa [hf] using hpc⟩
  · rintro ⟨⟨hwf, hlisted, haddr, himage, hcap⟩, ⟨hiff, hpc⟩, hw⟩
    refine ⟨hwf, hlisted, haddr, himage, ?_, ?_, hw⟩
    · split
      · trivial
      · next cap hc => exact hcap cap hc
    · split
      · next hf => simpa [hf] using hiff
      · next f hf => exact ⟨hiff.2 (by simp [hf]), hpc f hf⟩

/-! ### Memory -/

theorem MemoryOk.of_growth {s : State} {as : List Word} (h : MemoryOk s) (has : AllAccessOk s as) :
    MemoryOk (grownBy s as) where
  wf := h.wf
  listed c hc := Nat.lt_of_lt_of_le (h.listed c hc) (le_memLenAfter ..)
  addressable := memLenAfter_le h.addressable has
  image := h.image
  capacity cap hcap := memLenAfter_le_cap hcap (Nat.le_max_left ..) (h.capacity cap hcap) has

/-- Whatever an instruction's operation does, memory stays good: the one cell it may write lies below the new `mem_len`. -/
theorem MemoryOk.of_effect {i : Instr} {s u : State} (h : MemoryOk s) (he : Effect i s u) : MemoryOk u := by
  obtain ⟨as, has, hlen⟩ := he.memLen
  have hg : MemoryOk (grownBy s as) := h.of_growth has
  refine ⟨?wf, ?listed, hlen ▸ hg.addressable, he.image ▸ h.image, ?capacity⟩
  case wf =>
    rcases he.mem with hm | ⟨a, r, _, _, hm, _⟩ <;> rw [hm]
    · exact h.wf
    · exact Memory.wf_write h.wf a.toNat r
  case listed =>
    have hold : ∀ c ∈ s.mem, c.1 < u.memLen := hlen ▸ hg.listed
    intro c hc
    rcases he.mem with hm | ⟨a, r, _, _, hm, hlt⟩ <;> rw [hm] at hc
    · exact hold c hc
    · rcases Memory.mem_write hc with hc | hc
      · exact hold c hc
      · exact hc ▸ hlt
  case capacity =>
    rw [he.config, he.image, hlen]
    exact hg.capacity

theorem MemoryOk.of_begun {s : State} (h : MemoryOk s) (ha : AccessOk s s.pc) : MemoryOk (begun s) :=
  have hg := h.of_growth (as := [s.pc]) (by simpa [AllAccessOk] using ha)
  ⟨hg.wf, hg.listed, hg.addressable, hg.image, hg.capacity⟩

/-! ### The ways a step ends -/

/-- Fault entry makes the record valid, whatever it was before. -/
theorem inv_enterFault {s : State} (h : MemoryOk s) (v : Option Word) (c : Cause) : Inv (enterFault v c s) :=
  inv_iff.2 ⟨⟨h.wf, h.listed, h.addressable, h.image, h.capacity⟩,
    ⟨iff_of_true rfl rfl, by rintro f ⟨⟩; rfl⟩, .inl rfl⟩

theorem Inv.fault_eq_none {s : State} (h : Inv s) (hs : s.status = .ready ∨ s.status = .running) : s.fault = none := by
  obtain ⟨_, ⟨hf, _⟩, _⟩ := inv_iff.1 h
  have hne : s.status ≠ .faulted := by rcases hs with hs | hs <;> simp [hs]
  simpa using mt hf.2 hne

theorem faultRecordOk_of_none {s : State} (hf : s.fault = none) (hs : s.status ≠ .faulted) : FaultRecordOk s :=
  ⟨iff_of_false hs (by simp [hf]), by simp [hf]⟩

/-- A completed operation ends in the status it began with or in Halted, so no fault record becomes due. -/
theorem Inv.of_completion {i : Instr} {s u : State} (h : Inv s) (hs : s.status = .ready ∨ s.status = .running)
    (ha : AccessOk s s.pc) (he : Effect i (begun s) u) : Inv (u.setWaiting none) := by
  have hu : MemoryOk u := ((inv_iff.1 h).1.of_begun ha).of_effect he
  have hfault : u.fault = none := he.fault.trans (h.fault_eq_none hs)
  have hstatus : u.status ≠ .faulted := by
    have hb : (begun s).status = s.status := rfl
    rcases he.status with e | ⟨_, e⟩
    · rcases hs with hs | hs <;> simp [e, hb, hs]
    · simp [e]
  exact inv_iff.2 ⟨⟨hu.wf, hu.listed, hu.addressable, hu.image, hu.capacity⟩,
    faultRecordOk_of_none (s := u.setWaiting none) hfault hstatus, .inl rfl⟩

theorem Inv.setPorts {s : State} (h : Inv s) (i : InPort) (o : OutPort) : Inv (s.setPorts i o) := h

theorem Inv.of_wait {s : State} (h : Inv s) (hs : s.status = .ready ∨ s.status = .running)
    (d : IoDir) (i : InPort) (o : OutPort) : Inv (waitOnPort d i o s) := by
  obtain ⟨hwf, hlisted, haddr, himage, hcap, hfault, _⟩ := h
  exact ⟨hwf, hlisted, haddr, himage, hcap, hfault, .inr hs⟩

theorem Inv.of_exec {i : Instr} {s t : State} (h : Inv s) (hs : s.status = .ready ∨ s.status = .running)
    (he : exec i s = .next t) : Inv t := by
  have hm : MemoryOk s := (inv_iff.1 h).1
  rcases exec_cases he with ⟨k, _, rfl, _⟩ | ⟨ha, ⟨u, rfl, hu⟩ | ⟨c, u, rfl, hu, _⟩ | ⟨d, p, o, rfl, _⟩⟩
  · exact inv_enterFault hm _ _
  · exact h.of_completion hs ha hu
  · exact inv_enterFault ((hm.of_begun ha).of_effect hu) _ _
  · exact h.of_wait hs d p o

/-- Settles O43: the invariant through each way a step can go, by the effect every operation is bounded by. -/
theorem everyStepKeepsTheInvariant : Obligations.EveryStepKeepsTheInvariant := by
  intro s t h hstep
  have hm : MemoryOk s := (inv_iff.1 h).1
  obtain ⟨hs, ⟨_, rfl⟩ | ⟨_, ⟨k, _, rfl⟩ | ⟨ha, e, _, rfl⟩ | ⟨_, i, _, he⟩⟩⟩ := step_cases hstep
  · obtain ⟨i, o, e⟩ := pollAgain_eq s
    exact e ▸ h.setPorts i o
  · exact inv_enterFault hm _ _
  · exact inv_enterFault (hm.of_growth (by simpa [AllAccessOk] using ha)) _ _
  · exact h.of_exec hs he

/-- Settles O42: at reset memory is empty, no fault is recorded and nothing waits. -/
theorem invariantHoldsAtReset : Obligations.InvariantHoldsAtReset :=
  inv_iff.2 ⟨⟨rfl, by simp [State.reset], Nat.zero_le _, Nat.zero_le _, fun _ _ => Nat.zero_le _⟩,
    faultRecordOk_of_none rfl (by decide), .inl rfl⟩

/-- Settles O44: every register is as `State.reset` gives it, and the empty memory reads zero. -/
theorem resetValues : Obligations.ResetValues :=
  ⟨rfl, rfl, Memory.read_nil, rfl, rfl, rfl, rfl, rfl⟩

end Sys2Proof.Machine
end

section
/-! PROOFS. The relative base (spec/10_state.md R12): only AdjustRelativeBase writes it. -/

namespace Sys2Proof.Machine

/-- An instruction that leaves another `rb` is an AdjustRelativeBase that has added its operand. -/
theorem exec_rb {i : Instr} {s t : State} (h : exec i s = .next t) (hne : t.rb ≠ s.rb) :
    ∃ m1 m2 m3, i = .adjustRelativeBase m1 m2 m3 ∧ SourceOk s 1 m1 ∧ t.rb = s.rb + sourceValue s 1 m1 := by
  rcases exec_cases h with ⟨k, _, rfl, _⟩ | ⟨_, ⟨u, rfl, he⟩ | ⟨c, u, rfl, _, hleft⟩ | ⟨d, p, o, rfl, _⟩⟩
  · exact absurd rfl hne
  · obtain ⟨m1, m2, m3, hi, hsrc, hrb⟩ := he.rb.resolve_left hne
    exact ⟨m1, m2, m3, hi, source_good_begun.1 hsrc, by simpa using hrb⟩
  · obtain ⟨_, _, hrb, _⟩ := hleft
    exact absurd hrb hne
  · exact absurd rfl hne

/-- Settles O38: a step that takes a fetch or decode fault, or waits, leaves `rb`, so one that changes it has run an
instruction. -/
theorem onlyAdjustRelativeBaseChangesRb : Obligations.OnlyAdjustRelativeBaseChangesRb := by
  intro s t hstep hne
  obtain ⟨_, ⟨_, rfl⟩ | ⟨_, ⟨k, _, rfl⟩ | ⟨_, e, _, rfl⟩ | ⟨_, i, hd, he⟩⟩⟩ := step_cases hstep
  · obtain ⟨i, o, e⟩ := pollAgain_eq s
    exact absurd (congrArg State.rb e) hne
  · exact absurd rfl hne
  · exact absurd rfl hne
  · obtain ⟨m1, m2, m3, rfl, hsrc, hrb⟩ := exec_rb he hne
    exact ⟨m1, m2, m3, hd, hsrc, hrb⟩

end Sys2Proof.Machine
end

section
/-! PROOFS. What a program cannot see (spec/10_state.md R14, R15, R16): every operation answers alike in a state and in the
same state with `mem_len`, the trace and the image hidden. -/

namespace Sys2Proof.Machine

/-! ### What hiding keeps -/

@[simp] theorem hideHostOnly_pc (s : State) : (hideHostOnly s).pc = s.pc := rfl
@[simp] theorem hideHostOnly_mem (s : State) : (hideHostOnly s).mem = s.mem := rfl
@[simp] theorem hideHostOnly_status (s : State) : (hideHostOnly s).status = s.status := rfl
@[simp] theorem hideHostOnly_fault (s : State) : (hideHostOnly s).fault = s.fault := rfl
@[simp] theorem hideHostOnly_waiting (s : State) : (hideHostOnly s).waiting = s.waiting := rfl

theorem accessOk_hideHostOnly {s : State} {a : Word} : AccessOk (hideHostOnly s) a ↔ AccessOk s a := Iff.rfl

/-! ### Operations that cannot tell -/

/-- A result, its state with the host-only part hidden. -/
def Result.hide {α : Type} : Result α → Result α
  | .ok x s => .ok x (hideHostOnly s)
  | .raise c s => .raise c (hideHostOnly s)
  | .blocked d i o => .blocked d i o

/-- The operation's answer does not depend on `mem_len`, the trace or the image, which may only differ after it. -/
def Blind {α : Type} (f : State → Result α) : Prop := ∀ s, (f s).hide = (f (hideHostOnly s)).hide

theorem Blind.congr {α : Type} {f : State → Result α} (hf : Blind f) {s t : State}
    (h : hideHostOnly s = hideHostOnly t) : (f s).hide = (f t).hide := by rw [hf s, h, ← hf t]

/-- Answers alike are continued alike, if the continuations are. -/
theorem Result.hide_bind {α β : Type} {r r' : Result α} {f g : α → State → Result β} (hr : r.hide = r'.hide)
    (hfg : ∀ x s t, hideHostOnly s = hideHostOnly t → (f x s).hide = (g x t).hide) :
    (r.bind f).hide = (r'.bind g).hide := by
  cases r with
  | ok x s =>
    cases r' with
    | ok y t =>
      obtain ⟨rfl, hst⟩ := Result.ok.inj hr
      exact hfg x s t hst
    | _ => cases hr
  | raise c s =>
    cases r' with
    | raise d t =>
      obtain ⟨rfl, hst⟩ := Result.raise.inj hr
      exact congrArg (Result.raise c) hst
    | _ => cases hr
  | blocked d i o =>
    cases r' with
    | blocked d' i' o' => cases hr; rfl
    | _ => cases hr

theorem Result.hide_undoTo {α : Type} {r r' : Result α} {s t : State} (hr : r.hide = r'.hide)
    (hst : hideHostOnly s = hideHostOnly t) : (r.undoTo s).hide = (r'.undoTo t).hide := by
  have key : ∀ (q : Result α) (u : State), (q.undoTo u).hide = q.hide.undoTo (hideHostOnly u) := by
    intro q u
    cases q <;> rfl
  rw [key, key, hr, hst]

theorem Blind.bind {α β : Type} {f : State → Result α} {g : α → State → Result β} (hf : Blind f)
    (hg : ∀ x, Blind (g x)) : Blind fun s => (f s).bind g :=
  fun s => Result.hide_bind (hf s) fun x _ _ h => (hg x).congr h

/-! ### The primitives -/

theorem narrow_blind (z : Int) : Blind (narrow z) := by
  intro s
  by_cases h : s.config.ovfTraps = true ∧ (z < -2 ^ 63 ∨ 2 ^ 63 ≤ z)
  · rw [(narrow_traps_or_wraps z s).1 h, (narrow_traps_or_wraps z (hideHostOnly s)).1 h]
    rfl
  · rw [(narrow_traps_or_wraps z s).2 h, (narrow_traps_or_wraps z (hideHostOnly s)).2 h]
    rfl

theorem add64_blind (x y : Word) : Blind (add64 x y) := narrow_blind _

theorem mul64_blind (x y : Word) : Blind (mul64 x y) := narrow_blind _

theorem memRead_blind (a : Word) : Blind (memRead a) := by
  intro s
  rcases accessOk_cases s a with h | h | ⟨h, hc⟩
  · rw [memRead_of_accessOk h, memRead_of_accessOk (accessOk_hideHostOnly.2 h)]
    rfl
  · rw [memRead_negative h, memRead_negative h]
    rfl
  · rw [memRead_aboveCap h hc, memRead_aboveCap (s := hideHostOnly s) h hc]
    rfl

theorem advance_blind (n : Nat) : Blind (advance n) := fun s =>
  Result.hide_bind (add64_blind s.pc _ s) fun a _ _ h =>
    congrArg (fun u : State => Result.ok () (u.setPc a)) h

/-- `memWrite` itself answers the previous value, which tells `mem_len`; a store does not look at it. -/
theorem store_blind (a v : Word) (n : Nat) : Blind (store a v n) := by
  intro s
  refine Result.hide_undoTo ?_ rfl
  rcases accessOk_cases s a with h | h | ⟨h, hc⟩
  · rw [memWrite_of_accessOk h, memWrite_of_accessOk (accessOk_hideHostOnly.2 h)]
    exact (advance_blind n).congr rfl
  · rw [memWrite_negative v h, memWrite_negative v h]
    rfl
  · rw [memWrite_aboveCap v h hc, memWrite_aboveCap (s := hideHostOnly s) v h hc]
    rfl

theorem inRead_blind : Blind inRead := by
  intro s
  rcases inRead_cases s with ⟨x, p, hp, e⟩ | ⟨k, p, hp, e⟩ | ⟨p, hp, e⟩ <;> rw [e]
  · rw [inRead_of_value (s := hideHostOnly s) hp]
    rfl
  · rw [inRead_of_error (s := hideHostOnly s) hp]
    rfl
  · rw [inRead_of_notReady (s := hideHostOnly s) hp]
    rfl

theorem outWrite_blind (x : Word) : Blind (outWrite x) := by
  intro s
  rcases outWrite_cases x s with ⟨p, hp, e⟩ | ⟨k, p, hp, e⟩ | ⟨p, hp, e⟩ <;> rw [e]
  · rw [outWrite_of_accepted (s := hideHostOnly s) x hp]
    rfl
  · rw [outWrite_of_error (s := hideHostOnly s) x hp]
    rfl
  · rw [outWrite_of_notReady (s := hideHostOnly s) x hp]
    rfl

/-! ### Operands -/

theorem fetchOperand_blind (k : Nat) : Blind (fetchOperand k) := fun s =>
  Result.hide_bind (add64_blind s.pc _ s) fun a _ _ h => (memRead_blind a).congr h

/-- The address of a Relative operand. -/
theorem relativeAddress_blind (p : Word) : Blind fun s => add64 p s.rb s := fun s => add64_blind p s.rb s

theorem resolveValue_blind (m : Mode) (p : Word) : Blind (resolveValue m p) := by
  cases m with
  | pointer => exact memRead_blind p
  | value => exact fun _ => rfl
  | relative => exact (relativeAddress_blind p).bind memRead_blind

theorem resolveTarget_blind (m : Mode) (p : Word) : Blind (resolveTarget m p) := by
  cases m with
  | pointer => exact fun _ => rfl
  | value => exact fun _ => rfl
  | relative => exact relativeAddress_blind p

theorem source_blind (k : Nat) (m : Mode) : Blind (source k m) := (fetchOperand_blind k).bind (resolveValue_blind m)

theorem destination_blind (k : Nat) (m : Mode) : Blind (destination k m) :=
  (fetchOperand_blind k).bind (resolveTarget_blind m)

/-! ### The operations of the instructions -/

theorem storeResult_blind {op : Word → Word → State → Result Word} (hop : ∀ x y, Blind (op x y)) (m1 m2 m3 : Mode) :
    Blind (storeResult op m1 m2 m3) :=
  (source_blind 1 m1).bind fun x =>
  (source_blind 2 m2).bind fun y =>
  (destination_blind 3 m3).bind fun t =>
  (hop x y).bind fun r =>
  store_blind t r 4

theorem jumpWhen_blind (cond : Word → Bool) (m1 m2 : Mode) : Blind (jumpWhen cond m1 m2) := by
  refine (source_blind 1 m1).bind fun c => ?_
  cases cond c with
  | true => exact (source_blind 2 m2).bind fun _ _ => rfl
  | false => exact advance_blind 3

theorem adjustBody_blind (m1 : Mode) : Blind (adjustBody m1) :=
  (source_blind 1 m1).bind fun x s =>
  Result.hide_bind (add64_blind s.rb x s) fun r _ _ h =>
  Result.hide_undoTo ((advance_blind 2).congr (congrArg (State.setRb · r) h)) h

theorem inputBody_blind (m1 : Mode) : Blind (inputBody m1) :=
  inRead_blind.bind fun x => (destination_blind 1 m1).bind fun t => store_blind t x 2

theorem outputBody_blind (m1 : Mode) : Blind (outputBody m1) :=
  (source_blind 1 m1).bind fun x s =>
  Result.hide_bind (outWrite_blind x s) fun _ _ _ h => Result.hide_undoTo ((advance_blind 2).congr h) rfl

theorem bodyOf_blind (i : Instr) : Blind (bodyOf i) := by
  cases i with
  | endOp _ _ _ => exact fun _ => rfl
  | add m1 m2 m3 => exact storeResult_blind add64_blind m1 m2 m3
  | mul m1 m2 m3 => exact storeResult_blind mul64_blind m1 m2 m3
  | input m1 _ _ => exact inputBody_blind m1
  | output m1 _ _ => exact outputBody_blind m1
  | jumpIfNotZero m1 m2 _ => exact jumpWhen_blind isNonZero m1 m2
  | jumpIfZero m1 m2 _ => exact jumpWhen_blind isZero m1 m2
  | lessThan m1 m2 m3 => exact storeResult_blind (fun _ _ _ => rfl) m1 m2 m3
  | equalTo m1 m2 m3 => exact storeResult_blind (fun _ _ _ => rfl) m1 m2 m3
  | adjustRelativeBase m1 _ _ => exact adjustBody_blind m1

/-! ### The common path and the step -/

/-- The state in which the common path ends when the operation, begun after the opcode cell `v` was fetched in `s`, has
come to `r`. -/
def finishInstr (s : State) (v : Word) (r : Result Unit) : State :=
  match r with
  | .ok _ u => u.setWaiting none
  | .raise c u => enterFault (some v) c u
  | .blocked d i o => waitOnPort d i o s

theorem runInstr_eq_finishInstr {s : State} (h : AccessOk s s.pc) (body : State → Result Unit) :
    runInstr body s = .next (finishInstr s (s.mem.read s.pc.toNat) (body (begun s))) := by
  cases hb : body (begun s) with
  | ok x u => exact runInstr_of_ok h hb
  | raise c u => exact runInstr_of_raise h hb
  | blocked d i o => exact runInstr_of_blocked h hb

theorem hideHostOnly_finishInstr {s t : State} {r r' : Result Unit} (v : Word) (hst : hideHostOnly s = hideHostOnly t)
    (hr : r.hide = r'.hide) : hideHostOnly (finishInstr s v r) = hideHostOnly (finishInstr t v r') := by
  have key : ∀ (u : State) (q : Result Unit),
      hideHostOnly (finishInstr u v q) = hideHostOnly (finishInstr (hideHostOnly u) v q.hide) := by
    intro u q
    cases q <;> rfl
  rw [key, key t, hst, hr]

theorem exec_blind {s : State} (h : AccessOk s s.pc) (i : Instr) :
    mapNext hideHostOnly (exec i s) = mapNext hideHostOnly (exec i (hideHostOnly s)) := by
  rw [exec_eq_runInstr, exec_eq_runInstr, runInstr_eq_finishInstr h, runInstr_eq_finishInstr (accessOk_hideHostOnly.2 h)]
  exact congrArg Host.Outcome.next (hideHostOnly_finishInstr _ rfl ((bodyOf_blind i).congr rfl))

theorem hideHostOnly_pollAgain (s : State) : hideHostOnly (pollAgain s) = hideHostOnly (pollAgain (hideHostOnly s)) := by
  unfold pollAgain
  rw [hideHostOnly_waiting]
  split <;> rfl

/-- An enabled step: the fetch fails alike, or the same cell is decoded, to a fault or to the same instruction. -/
theorem step_blind_of_enabled {s : State} (hs : s.status = .ready ∨ s.status = .running) (hp : portAnswers s = true) :
    mapNext hideHostOnly (step s) = mapNext hideHostOnly (step (hideHostOnly s)) := by
  rw [step_of_admitted hs hp, step_of_admitted (s := hideHostOnly s) hs hp]
  rcases accessOk_cases s s.pc with h | h | ⟨h, hc⟩
  · simp only [fetchDecode, hideHostOnly_pc, hideHostOnly_mem, memRead_of_accessOk h,
      memRead_of_accessOk (accessOk_hideHostOnly.2 h)]
    cases decode (s.mem.read s.pc.toNat) with
    | error e => rfl
    | ok i => exact exec_blind h i
  · simp only [fetchDecode, hideHostOnly_pc, memRead_negative h]
    rfl
  · have hc' : belowCap (hideHostOnly s).config s.pc.toNat = false := hc
    simp only [fetchDecode, hideHostOnly_pc, memRead_aboveCap h hc, memRead_aboveCap h hc']
    rfl

theorem step_blind (s : State) : mapNext hideHostOnly (step s) = mapNext hideHostOnly (step (hideHostOnly s)) := by
  have admitted : s.status = .ready ∨ s.status = .running →
      mapNext hideHostOnly (step s) = mapNext hideHostOnly (step (hideHostOnly s)) := by
    intro hs
    cases hp : portAnswers s with
    | true => exact step_blind_of_enabled hs hp
    | false =>
      rw [step_of_waiting hs hp, step_of_waiting (s := hideHostOnly s) hs hp]
      exact congrArg Host.Outcome.next (hideHostOnly_pollAgain s)
  cases hs : s.status with
  | ready => exact admitted (.inl hs)
  | running => exact admitted (.inr hs)
  | _ => simp only [step, hideHostOnly_status, hs, hideHostOnly_fault, mapNext]

/-- Settles O41: both steps come out as the step of the one state in which the host's part is hidden. -/
theorem hostOnlyStateIsInvisible : Obligations.HostOnlyStateIsInvisible := by
  intro s t h
  rw [step_blind s, h, ← step_blind t]

end Sys2Proof.Machine
end

section
/-! PROOFS. The memory primitives and the write of a storing instruction (spec/20_memory.md R32, R33, R35): which accesses
fail, and what a target that cannot be written leaves. -/

namespace Sys2Proof.Machine

/-! ### Reading and writing -/

/-- The two premises under which R32 and R33 give an access no fault. -/
theorem accessOk_iff {s : State} {a : Word} :
    AccessOk s a ↔ 0 ≤ a.toInt ∧ ∀ cap, s.config.memCap = some cap → a.toNat < cap :=
  and_congr_right fun _ => belowCap_iff

theorem belowCap_eq_false {s : State} {a : Word} {cap : Nat} (hcap : s.config.memCap = some cap) (h : cap ≤ a.toNat) :
    belowCap s.config a.toNat = false := by
  rw [← Bool.not_eq_true, belowCap_iff]
  intro hlt
  exact absurd (hlt cap hcap) (by omega)

/-- In a state that meets the invariant, growth uncovers zeros. -/
theorem Inv.read_eq_zero_of_memLen_le {s : State} (h : Inv s) {a : Nat} (ha : s.memLen ≤ a) : s.mem.read a = 0 :=
  Memory.read_of_not_listed fun c hc => by
    have := (inv_iff.1 h).1.listed c hc
    omega

/-- Settles O7: an access succeeds or fails as R32 says, and the invariant lists no cell at or above `mem_len`. -/
theorem memReadFollowsItsRule : Obligations.MemReadFollowsItsRule := by
  refine fun a s => ⟨memRead_negative, fun cap hpos hcap hle => ?capacity, fun hpos hcap => ⟨?reads, ?grown⟩⟩
  case capacity => exact memRead_aboveCap hpos (belowCap_eq_false hcap hle)
  case reads => exact memRead_of_accessOk (accessOk_iff.2 ⟨hpos, hcap⟩)
  case grown => exact fun h => h.read_eq_zero_of_memLen_le

/-- Settles O8: an access succeeds or fails as R33 says, and `Memory.read_write` gives every cell afterwards. -/
theorem memWriteFollowsItsRule : Obligations.MemWriteFollowsItsRule := by
  refine fun a v s hwf => ⟨memWrite_negative v, fun cap hpos hcap hle => ?capacity, fun hpos hcap =>
    ⟨s.mem.write a.toNat v, ?writes, fun b => ?reads⟩⟩
  case capacity => exact memWrite_aboveCap v hpos (belowCap_eq_false hcap hle)
  case writes =>
    rw [memWrite_of_accessOk (accessOk_iff.2 ⟨hpos, hcap⟩)]
    simp only [← Nat.not_lt, ite_not]
    rfl
  case reads => simp only [Memory.read_write hwf, eq_comm]

/-! ### A target that cannot be written -/

/-- The fault of an operation that has read the cells `as`, in the words of the statements. -/
theorem enterFault_grownBy_begun (v : Option Word) (c : Cause) (s : State) (as : List Word) :
    enterFault v c (grownBy (begun s) as) = faultedWith (started s as) v c.kind c.bad c.io := rfl

@[simp] theorem fourCellReads_begun (s : State) (m1 m2 : Mode) : fourCellReads (begun s) m1 m2 = fourCellReads s m1 m2 := by
  simp [fourCellReads]

/-- The write of a storing operation comes before the `pc` update, so its fault is the operation's. -/
theorem store_of_fails {s : State} {a : Word} {k : FaultKind} (h : AccessFails s a k) (v : Word) (n : Nat) :
    store a v n s = .raise ⟨k, some a, none⟩ s := by
  rw [store, memWrite_of_fails v h]
  rfl

/-- A storing operation that has its result `r` and cannot write it. -/
theorem runInstr_storeResult_of_target_fails {op : Word → Word → State → Result Word} {m1 m2 m3 : Mode} {s : State}
    {a r : Word} {k : FaultKind} (hpc : AccessOk s s.pc) (hfails : AccessFails s a k) (h1 : SourceOk s 1 m1)
    (h2 : SourceOk s 2 m2) (h3 : TargetResolves s 3 m3 a)
    (hop : op (sourceValue s 1 m1) (sourceValue s 2 m2) (grownBy (begun s) (fourCellReads s m1 m2)) =
      .ok r (grownBy (begun s) (fourCellReads s m1 m2))) :
    runInstr (storeResult op m1 m2 m3) s = .next (faultedWith (started s (fourCellReads s m1 m2))
      (some (s.mem.read s.pc.toNat)) k (some a) none) := by
  have hbody : storeResult op m1 m2 m3 (begun s) =
      .raise ⟨k, some a, none⟩ (grownBy (begun s) (fourCellReads s m1 m2)) := by
    rw [storeResult_of_operands (source_good_begun.2 h1) (source_good_begun.2 h2) (target_resolves_begun.2 h3),
      fourCellReads_begun, sourceValue_begun, sourceValue_begun, hop, Result.bind_ok]
    exact store_of_fails (s := grownBy (begun s) (fourCellReads s m1 m2)) hfails r 4
  rw [runInstr_of_raise hpc hbody, enterFault_grownBy_begun]

/-- An `Input` whose port has delivered `x` and whose target cannot be written. -/
theorem runInstr_inputBody_of_target_fails {m1 : Mode} {s : State} {a x : Word} {p : InPort} {k : FaultKind}
    (hpc : AccessOk s s.pc) (hfails : AccessFails s a k) (hp : pollIn s.inPort = (.value x, p))
    (h1 : TargetResolves s 1 m1 a) :
    runInstr (inputBody m1) s = .next (faultedWith { started s [operandCell s 1] with inPort := p }
      (some (s.mem.read s.pc.toNat)) k (some a) none) := by
  have htarget : TargetResolves ((begun s).setInPort p) 1 m1 a := by cases m1 <;> exact h1
  have hbody : inputBody m1 (begun s) =
      .raise ⟨k, some a, none⟩ (grownBy ((begun s).setInPort p) [operandCell s 1]) := by
    rw [inputBody, inRead_of_value (s := begun s) hp, Result.bind_ok, destination_of_targetResolves htarget,
      Result.bind_ok]
    exact store_of_fails (s := grownBy ((begun s).setInPort p) [operandCell s 1]) hfails x 2
  rw [runInstr_of_raise hpc hbody]
  rfl

/-- Settles O30: each of the four operations comes to its result and fails at the write; `Input` has polled its port. -/
theorem targetAddressFaults : Obligations.TargetAddressFaults := by
  intro m1 m2 m3 s a k hpc hfails
  refine ⟨?storing, fun x p hp h1 => runInstr_inputBody_of_target_fails hpc hfails hp h1⟩
  rintro i (⟨rfl, hsum⟩ | ⟨rfl, hprod⟩ | rfl | rfl) h1 h2 h3
  · exact runInstr_storeResult_of_target_fails hpc hfails h1 h2 h3 (add64_of_sumOk hsum)
  · exact runInstr_storeResult_of_target_fails hpc hfails h1 h2 h3 (mul64_of_productOk hprod)
  · exact runInstr_storeResult_of_target_fails hpc hfails h1 h2 h3 rfl
  · exact runInstr_storeResult_of_target_fails hpc hfails h1 h2 h3 rfl

end Sys2Proof.Machine
end

section
/-! PROOFS. Channels (spec/20_memory.md R42; spec/43_io.md R95, R98; spec/60_exceptions.md R148): a step only adds to the
observable output, and it takes the Word its input port offers exactly when it runs an `Input`. -/

namespace Sys2Proof.Machine

/-! ### The output of a step -/

theorem exec_output_prefix {i : Instr} {s t : State} (h : exec i s = .next t) : s.output <+: t.output := by
  rcases exec_cases h with ⟨k, _, rfl, _⟩ | ⟨_, ⟨u, rfl, he⟩ | ⟨c, u, rfl, _, hleft⟩ | ⟨d, p, o, rfl, _⟩⟩
  · exact List.prefix_refl _
  · rcases he.output with hu | ⟨m1, m2, m3, _, _, _, hu⟩
    · exact (show u.output = s.output from hu) ▸ List.prefix_refl s.output
    · exact ⟨_, hu.symm⟩
  · obtain ⟨_, _, _, hu, _⟩ := hleft
    exact (show u.output = s.output from hu) ▸ List.prefix_refl s.output
  · exact List.prefix_refl _

/-- What has been sent stays sent. -/
theorem step_output_prefix {s t : State} (h : step s = .next t) : s.output <+: t.output := by
  obtain ⟨_, ⟨_, rfl⟩ | ⟨_, ⟨k, _, rfl⟩ | ⟨_, e, _, rfl⟩ | ⟨_, i, _, he⟩⟩⟩ := step_cases h
  · obtain ⟨i, o, e⟩ := pollAgain_eq s
    exact e ▸ List.prefix_refl s.output
  · exact List.prefix_refl _
  · exact List.prefix_refl _
  · exact exec_output_prefix he

/-! ### The Word an input port offers -/

/-- A step that still waits while its input port has an answer waits on the other port. -/
theorem pollAgain_inPort {s : State} (hin : (pollIn s.inPort).1 ≠ .notReady) (hp : portAnswers s = false) :
    (pollAgain s).inPort = s.inPort := by
  unfold portAnswers at hp
  unfold pollAgain
  cases hw : s.waiting with
  | none => rfl
  | some d =>
    cases d with
    | input => simp [hw, hin] at hp
    | output => rfl

/-- A port that offers one Word is emptied by an enabled step at an `Input`, and by no other. -/
theorem step_empties_inPort {s t : State} {x : Word} (hs : s.inPort = ⟨[.value x], .always .notReady, 0⟩)
    (h : step s = .next t) : t.inPort.script.isEmpty = (portAnswers s && atInput s) := by
  cases hp : portAnswers s with
  | false =>
    rw [step_of_waiting (admitted_of_step h) hp] at h
    cases h
    rw [pollAgain_inPort (by simp [hs, pollIn]) hp, hs]
    rfl
  | true =>
    rw [step_inPort h hp, hs]
    cases atInput s <;> rfl

theorem atInput_setPorts (s : State) (i : InPort) (o : OutPort) : atInput (s.setPorts i o) = atInput s := by
  have key : ∀ u : State, atInput u = true ↔
      (u.status = .ready ∨ u.status = .running) ∧ ∃ m1 m2 m3, fetchDecode u = .ok (.input m1 m2 m3) := by
    intro u
    unfold atInput
    rcases hf : fetchDecode u with e | j
    · simp
    · cases j <;> simp
  rw [Bool.eq_iff_iff, key, key]
  simp only [fetchDecode_setPorts]
  exact Iff.rfl

/-- Where an `Input` is next, a step is admitted. -/
theorem step_answers_of_atInput {s : State} (h : atInput s = true) : ∃ t, step s = .next t := by
  refine step_answers ?_
  simpa using (Bool.and_eq_true_iff.1 h).1

/-! ### The channel between two stages -/

/-- A delivery moves a Word within the ledger. -/
theorem Channel.afterReader_ledger (c : Channel) (t : State) :
    (c.afterReader t).received ++ (c.afterReader t).queue = c.received ++ c.queue := by
  unfold Channel.afterReader
  split
  · next x rest hq =>
    split
    · simp [hq]
    · rfl
  · rfl

theorem Channel.afterReader_of_queue_cons {c : Channel} {x : Word} {rest : List Word} (h : c.queue = x :: rest)
    (t : State) : c.afterReader t =
      if t.inPort.script.isEmpty then { c with queue := rest, received := c.received ++ [x] } else c := by
  rw [Channel.afterReader, h]

theorem Channel.afterReader_of_queue_nil {c : Channel} (h : c.queue = []) (t : State) : c.afterReader t = c := by
  rw [Channel.afterReader, h]

/-- What the writer's step has sent joins the ledger. -/
theorem Channel.afterWriter_ledger {c : Channel} {s t : State} (h : s.output = c.received ++ c.queue)
    (hst : s.output <+: t.output) : t.output = (c.afterWriter s t).received ++ (c.afterWriter s t).queue := by
  obtain ⟨sent, hsent⟩ := hst
  simp [Channel.afterWriter, ← hsent, h]

theorem Channel.asInPort_of_queue_cons {c : Channel} {x : Word} {rest : List Word} (h : c.queue = x :: rest) :
    c.asInPort = ⟨[.value x], .always .notReady, 0⟩ := by rw [Channel.asInPort, h]

theorem Channel.pollIn_asInPort_of_queue_nil {c : Channel} (h : c.queue = []) :
    (pollIn c.asInPort).1 = if c.closed then .error .channelClosed else .notReady := by
  rw [Channel.asInPort, h]
  rfl

/-! ### One step of a pipeline -/

namespace Pipeline

variable {p : Pipeline} {j k : Nat} {c : Channel} {s t : State}

theorem wired_inPort (hc : p.channels[j]? = some c) (s : State) : (p.wired (j + 1) s).inPort = c.asInPort := by
  have : (p.wired (j + 1) s).inPort = p.inPortOf (j + 1) s := rfl
  rw [this, inPortOf, hc]

/-- Everything a step of stage `k` can do to the pipeline. -/
theorem stepAt_cases (p : Pipeline) (k : Nat) :
    ((∀ s t, p.stages[k]? = some s → step (p.wired k s) ≠ .next t) ∧ p.stepAt k = p) ∨
    ∃ s t, p.stages[k]? = some s ∧ step (p.wired k s) = .next t ∧
      p.stepAt k = ⟨p.stages.set k t, (p.channelsRead k t).modify k (·.afterWriter s t)⟩ := by
  cases hs : p.stages[k]? with
  | none => exact .inl ⟨by simp, by simp only [stepAt, hs]⟩
  | some s =>
    cases ht : step (p.wired k s) with
    | next t => exact .inr ⟨s, t, rfl, ht, by simp only [stepAt, hs, ht]⟩
    | fault r => exact .inl ⟨by rintro _ t ⟨⟩; simp [ht], by simp only [stepAt, hs, ht]⟩
    | refused r => exact .inl ⟨by rintro _ t ⟨⟩; simp [ht], by simp only [stepAt, hs, ht]⟩

/-- What a step of stage `k` to `t` makes of channel `j` as its reader; every other channel is as it was. -/
theorem channelsRead_getElem? (p : Pipeline) (k j : Nat) (t : State) :
    (p.channelsRead k t)[j]? = (p.channels[j]?).map fun c => if k = j + 1 then c.afterReader t else c := by
  cases k with
  | zero => simp [channelsRead]
  | succ i =>
    rw [channelsRead, List.getElem?_modify]
    by_cases hij : i = j <;> simp [hij]

/-- A step of its reader is all that happens to a channel, if it happens. -/
theorem stepAt_reader (hc : p.channels[j]? = some c) (hs : p.stages[j + 1]? = some s) :
    (∃ t, step (p.wired (j + 1) s) = .next t ∧ (p.stepAt (j + 1)).channels[j]? = some (c.afterReader t)) ∨
    ((∀ t, step (p.wired (j + 1) s) ≠ .next t) ∧ (p.stepAt (j + 1)).channels[j]? = some c) := by
  rcases p.stepAt_cases (j + 1) with ⟨hno, e⟩ | ⟨s', t, hs', ht, e⟩ <;> rw [e]
  · exact .inr ⟨fun t => hno s t hs, hc⟩
  · obtain rfl : s = s' := Option.some.inj (hs.symm.trans hs')
    exact .inl ⟨t, ht, by simp [channelsRead_getElem?, hc]⟩

/-- The reader is offered the oldest Word, and takes it at an `Input`. -/
theorem stepAt_delivers {x : Word} {rest : List Word} (hc : p.channels[j]? = some c) (hs : p.stages[j + 1]? = some s)
    (hq : c.queue = x :: rest) : (p.stepAt (j + 1)).channels[j]? =
      some (if portAnswers (p.wired (j + 1) s) && atInput s then
        { c with queue := rest, received := c.received ++ [x] } else c) := by
  have hport := (wired_inPort hc s).trans (Channel.asInPort_of_queue_cons hq)
  have hat : atInput (p.wired (j + 1) s) = atInput s := atInput_setPorts ..
  rw [← hat]
  rcases stepAt_reader hc hs with ⟨t, ht, e⟩ | ⟨hno, e⟩ <;> rw [e]
  · rw [Channel.afterReader_of_queue_cons hq, step_empties_inPort hport ht]
  · have hnot : atInput (p.wired (j + 1) s) = false := by
      rw [← Bool.not_eq_true]
      exact fun h => (step_answers_of_atInput h).elim hno
    simp [hnot]

theorem stepAt_of_queue_nil (hc : p.channels[j]? = some c) (hs : p.stages[j + 1]? = some s) (hq : c.queue = []) :
    (p.stepAt (j + 1)).channels[j]? = some c := by
  rcases stepAt_reader hc hs with ⟨t, _, e⟩ | ⟨_, e⟩ <;> rw [e]
  rw [Channel.afterReader_of_queue_nil hq]

theorem handsOverOldest (p : Pipeline) : HandsOverOldest p := by
  refine fun j c s hc hs => ⟨fun x rest hq => ⟨?offered, stepAt_delivers hc hs hq⟩,
    fun hq => ⟨?nothing, stepAt_of_queue_nil hc hs hq⟩⟩
  case offered =>
    rw [wired_inPort hc, Channel.asInPort_of_queue_cons hq]
    rfl
  case nothing => rw [wired_inPort hc, Channel.pollIn_asInPort_of_queue_nil hq]

/-- The ledger of a channel through a step: its writer's Words join it, its reader's move within it, and the other
stages leave it alone. -/
theorem inOrder_stepAt (h : InOrder p) (k : Nat) : InOrder (p.stepAt k) := by
  rcases p.stepAt_cases k with ⟨_, e⟩ | ⟨s, t, hs, ht, e⟩ <;> rw [e]
  · exact h
  intro j c' u hc' hu
  rw [List.getElem?_modify, channelsRead_getElem?, Option.map_eq_map, Option.map_map, Option.map_eq_some_iff] at hc'
  obtain ⟨c, hc, rfl⟩ := hc'
  by_cases hkj : k = j
  · subst hkj
    obtain rfl : t = u := by simpa [List.getElem?_set, hs, (List.getElem?_eq_some_iff.1 hs).1] using hu
    have hsent : s.output <+: t.output := step_output_prefix (s := p.wired k s) ht
    simpa using Channel.afterWriter_ledger (h k c s hc hs) hsent
  · have hu : p.stages[j]? = some u := by simpa [List.getElem?_set, hkj] using hu
    by_cases hread : k = j + 1
    · simpa [hkj, hread, Channel.afterReader_ledger] using h j c u hc hu
    · simpa [hkj, hread] using h j c u hc hu

end Pipeline

/-- Settles O51: the reader's port holds the oldest Word and is emptied at an `Input` alone, and every step keeps the
ledger. -/
theorem channelsDeliverInOrder : Obligations.ChannelsDeliverInOrder :=
  fun p => ⟨p.handsOverOldest, fun k h => Pipeline.inOrder_stepAt h k⟩

end Sys2Proof.Machine
end

section
/-! PROOFS. The decoder and the encoder (spec/30_encoding.md R51 to R59): what `decode` answers for every Word, and that the
canonical cells are the five-digit cells it accepts. -/

namespace Sys2Proof

/-! ### The canonical cell -/

theorem encodedCell (i : Instr) : Laws.EncodedCell.Statement i := by
  cases i with
  | endOp m1 m2 m3 => exact Laws.EncodedCell.endOp m1 m2 m3
  | add m1 m2 m3 => exact Laws.EncodedCell.add m1 m2 m3
  | mul m1 m2 m3 => exact Laws.EncodedCell.mul m1 m2 m3
  | input m1 m2 m3 => exact Laws.EncodedCell.input m1 m2 m3
  | output m1 m2 m3 => exact Laws.EncodedCell.output m1 m2 m3
  | jumpIfNotZero m1 m2 m3 => exact Laws.EncodedCell.jumpIfNotZero m1 m2 m3
  | jumpIfZero m1 m2 m3 => exact Laws.EncodedCell.jumpIfZero m1 m2 m3
  | lessThan m1 m2 m3 => exact Laws.EncodedCell.lessThan m1 m2 m3
  | equalTo m1 m2 m3 => exact Laws.EncodedCell.equalTo m1 m2 m3
  | adjustRelativeBase m1 m2 m3 => exact Laws.EncodedCell.adjustRelativeBase m1 m2 m3

theorem encode_nonneg (i : Instr) : 0 ≤ (encode i).toInt := (encodedCell i).1

theorem encode_toNat (i : Instr) : (encode i).toNat =
    i.opcode + 100 * i.modes.1.digit + 1000 * i.modes.2.1.digit + 10000 * i.modes.2.2.digit := (encodedCell i).2

theorem encode_toNat_lt (i : Instr) : (encode i).toNat < 100000 := by
  have := encode_toNat i
  have := i.opcode_lt
  have := i.modes.1.digit_le
  have := i.modes.2.1.digit_le
  have := i.modes.2.2.digit_le
  omega

/-- Five decimal digits are the canonical cell exactly when its fields are read off them: no field carries into the
next. -/
theorem mod_eq_encode_iff (n : Nat) (i : Instr) : n % 100000 = (encode i).toNat ↔
    n % 100 = i.opcode ∧ digit n 2 = i.modes.1.digit ∧ digit n 3 = i.modes.2.1.digit ∧ digit n 4 = i.modes.2.2.digit := by
  rw [encode_toNat, digit_two, digit_three, digit_four]
  have := i.opcode_lt
  have := i.modes.1.digit_le
  have := i.modes.2.1.digit_le
  have := i.modes.2.2.digit_le
  omega

/-! ### Everything the decoder answers -/

theorem decode_negative {v : Word} (h : v.toInt < 0) : decode v = .error .unknownOpcode := if_pos h

theorem decode_of_no_operation {v : Word} (h : operationOf (v.toNat % 100) = none) :
    decode v = .error .unknownOpcode := by
  simp [decode, Config.opcodeModulus, h]

theorem decode_of_modes {v : Word} {op : Mode → Mode → Mode → Instr} {m1 m2 m3 : Mode} (hv : 0 ≤ v.toInt)
    (hop : operationOf (v.toNat % 100) = some op) (h1 : modeOf (digit v.toNat 2) = some m1)
    (h2 : modeOf (digit v.toNat 3) = some m2) (h3 : modeOf (digit v.toNat 4) = some m3) :
    decode v = .ok (op m1 m2 m3) := by
  simp [decode, Config.opcodeModulus, Int.not_lt.2 hv, hop, h1, h2, h3]

theorem decode_of_no_mode {v : Word} {op : Mode → Mode → Mode → Instr} (hv : 0 ≤ v.toInt)
    (hop : operationOf (v.toNat % 100) = some op)
    (h : modeOf (digit v.toNat 2) = none ∨ modeOf (digit v.toNat 3) = none ∨ modeOf (digit v.toNat 4) = none) :
    decode v = .error .unknownMode := by
  rcases h with h | h | h <;> simp [decode, Config.opcodeModulus, Int.not_lt.2 hv, hop, h]

/-- The instruction a cell decodes to is the one whose fields stand in it. -/
theorem decode_eq_ok_iff {v : Word} {i : Instr} : decode v = .ok i ↔
    0 ≤ v.toInt ∧ v.toNat % 100 = i.opcode ∧ digit v.toNat 2 = i.modes.1.digit ∧
      digit v.toNat 3 = i.modes.2.1.digit ∧ digit v.toNat 4 = i.modes.2.2.digit := by
  refine ⟨decode_eq_ok, fun ⟨hv, ho, h1, h2, h3⟩ => ?_⟩
  obtain ⟨op, hop, hi⟩ := operationOf_opcode i
  rw [decode_of_modes hv (ho ▸ hop) (modeOf_eq_some.2 h1) (modeOf_eq_some.2 h2) (modeOf_eq_some.2 h3), hi]

/-- Settles O2: the five low digits hold the four fields of an instruction exactly when they are its canonical cell. -/
theorem decodesExactlyItsCells : Obligations.DecodesExactlyItsCells := by
  intro v i
  rw [decode_eq_ok_iff, mod_eq_encode_iff]

/-- Settles O1: the canonical cell is a five-digit cell, so it is its own five low digits. -/
theorem decodeOfEncodeIsTheInstruction : Obligations.DecodeOfEncodeIsTheInstruction := fun i =>
  (decodesExactlyItsCells (encode i) i).2 ⟨encode_nonneg i, Nat.mod_eq_of_lt (encode_toNat_lt i)⟩

/-! ### Illegal cells -/

/-- The cell is negative (D3) or its low two digits are no opcode. -/
def HasNoOperation (v : Word) : Prop := v.toInt < 0 ∨ operationOf (v.toNat % 100) = none

/-- One of the three mode digits is no mode, whether or not the operation uses it (D4). -/
def HasNoMode (v : Word) : Prop :=
  modeOf (digit v.toNat 2) = none ∨ modeOf (digit v.toNat 3) = none ∨ modeOf (digit v.toNat 4) = none

theorem hasNoOperation_iff {v : Word} :
    HasNoOperation v ↔ v.toInt < 0 ∨ ¬ v.toNat % 100 ∈ [1, 2, 3, 4, 5, 6, 7, 8, 9, 99] :=
  or_congr_right operationOf_eq_none

theorem hasNoMode_iff {v : Word} :
    HasNoMode v ↔ 2 < v.toNat / 100 % 10 ∨ 2 < v.toNat / 1000 % 10 ∨ 2 < v.toNat / 10000 % 10 :=
  or_congr modeOf_eq_none (or_congr modeOf_eq_none modeOf_eq_none)

theorem decode_of_hasNoOperation {v : Word} (h : HasNoOperation v) : decode v = .error .unknownOpcode :=
  h.elim decode_negative decode_of_no_operation

/-- Everything the decoder can answer; the opcode is examined before the modes (D6). -/
theorem decode_cases (v : Word) :
    (HasNoOperation v ∧ decode v = .error .unknownOpcode) ∨
    (¬ HasNoOperation v ∧ HasNoMode v ∧ decode v = .error .unknownMode) ∨
    (¬ HasNoOperation v ∧ ¬ HasNoMode v ∧ ∃ i, decode v = .ok i) := by
  by_cases ho : HasNoOperation v
  · exact .inl ⟨ho, decode_of_hasNoOperation ho⟩
  obtain ⟨hv, op, hop⟩ : 0 ≤ v.toInt ∧ ∃ op, operationOf (v.toNat % 100) = some op := by
    simpa [HasNoOperation, Option.ne_none_iff_exists'] using ho
  by_cases hm : HasNoMode v
  · exact .inr (.inl ⟨ho, hm, decode_of_no_mode hv hop hm⟩)
  · obtain ⟨⟨m1, h1⟩, ⟨m2, h2⟩, ⟨m3, h3⟩⟩ : (∃ m1, modeOf (digit v.toNat 2) = some m1) ∧
        (∃ m2, modeOf (digit v.toNat 3) = some m2) ∧ ∃ m3, modeOf (digit v.toNat 4) = some m3 := by
      simpa [HasNoMode, Option.ne_none_iff_exists'] using hm
    exact .inr (.inr ⟨ho, hm, _, decode_of_modes hv hop h1 h2 h3⟩)

theorem decode_eq_unknownOpcode_iff {v : Word} : decode v = .error .unknownOpcode ↔ HasNoOperation v := by
  rcases decode_cases v with ⟨ho, e⟩ | ⟨ho, _, e⟩ | ⟨ho, _, i, e⟩ <;> simp [e, ho]

theorem decode_eq_unknownMode_iff {v : Word} : decode v = .error .unknownMode ↔ ¬ HasNoOperation v ∧ HasNoMode v := by
  rcases decode_cases v with ⟨ho, e⟩ | ⟨ho, hm, e⟩ | ⟨_, hm, i, e⟩ <;> simp [*]

/-- Settles O3: each error has its own cells, said in digits. -/
theorem illegalCellsAndTheirErrors : Obligations.IllegalCellsAndTheirErrors := by
  intro v
  rw [decode_eq_unknownOpcode_iff, decode_eq_unknownMode_iff, hasNoOperation_iff, hasNoMode_iff, not_or, not_not,
    Int.not_lt, and_assoc]
  exact ⟨Iff.rfl, Iff.rfl⟩

/-! ### The tables -/

/-- Settles O4: each cell is the canonical cell of its instruction. -/
theorem workedDecodings : Obligations.WorkedDecodings :=
  ⟨decodeOfEncodeIsTheInstruction (.mul .pointer .value .pointer),
    decodeOfEncodeIsTheInstruction (.adjustRelativeBase .value .pointer .pointer),
    decodeOfEncodeIsTheInstruction (.endOp .pointer .pointer .pointer),
    decodeOfEncodeIsTheInstruction (.endOp .pointer .value .pointer),
    decodeOfEncodeIsTheInstruction (.endOp .value .value .value)⟩

/-- Settles O5: the opcode number alone is the canonical cell in Pointer modes. -/
theorem opcodeNumbersAndLengths : Obligations.OpcodeNumbersAndLengths := by
  rintro p rfl
  have h (op : Mode → Mode → Mode → Instr) := decodeOfEncodeIsTheInstruction (op .pointer .pointer .pointer)
  exact ⟨⟨h .endOp, rfl⟩, ⟨h .add, rfl⟩, ⟨h .mul, rfl⟩, ⟨h .input, rfl⟩, ⟨h .output, rfl⟩, ⟨h .jumpIfNotZero, rfl⟩,
    ⟨h .jumpIfZero, rfl⟩, ⟨h .lessThan, rfl⟩, ⟨h .equalTo, rfl⟩, ⟨h .adjustRelativeBase, rfl⟩⟩

end Sys2Proof
end

section
/-! PROOFS. A target in Value mode (spec/30_encoding.md R60): the fault is raised where the target is resolved. -/

namespace Sys2Proof.Machine

/-- A storing operation reads its sources and its target's cell before it finds the target's mode illegal. -/
theorem storeResult_of_value_target {op : Word → Word → State → Result Word} {m1 m2 : Mode} {s : State}
    (h1 : SourceOk s 1 m1) (h2 : SourceOk s 2 m2) (h3 : FetchOk s 3) :
    storeResult op m1 m2 .value s = .raise ⟨.writeModeError, none, none⟩ (grownBy s (fourCellReads s m1 m2)) := by
  have h3 : FetchOk (grownBy s (sourceCells s 1 m1 ++ sourceCells s 2 m2)) 3 := h3
  rw [storeResult, source_of_sourceOk h1, Result.bind_ok, source_of_sourceOk (source_good_grownBy.2 h2), Result.bind_ok,
    sourceCells_grownBy, grownBy_grownBy, destination_of_value h3, Result.bind_raise, grownBy_grownBy]
  rfl

theorem runInstr_storeResult_of_value_target {m1 m2 : Mode} {s : State} (op : Word → Word → State → Result Word)
    (hpc : AccessOk s s.pc) (h1 : SourceOk s 1 m1) (h2 : SourceOk s 2 m2) (h3 : FetchOk s 3) :
    runInstr (storeResult op m1 m2 .value) s = .next (faultedWith (started s (fourCellReads s m1 m2))
      (some (s.mem.read s.pc.toNat)) .writeModeError none none) := by
  have h3 : FetchOk (begun s) 3 := h3
  rw [runInstr_of_raise hpc (storeResult_of_value_target (source_good_begun.2 h1) (source_good_begun.2 h2) h3),
    fourCellReads_begun, enterFault_grownBy_begun]

/-- `Input` has taken its Word from the port when it finds its target's mode illegal, so the Word is lost (D11). -/
theorem runInstr_inputBody_of_value_target {s : State} {x : Word} {p : InPort} (hpc : AccessOk s s.pc)
    (hp : pollIn s.inPort = (.value x, p)) (h1 : FetchOk s 1) :
    runInstr (inputBody .value) s = .next (faultedWith { started s [operandCell s 1] with inPort := p }
      (some (s.mem.read s.pc.toNat)) .writeModeError none none) := by
  have h1 : FetchOk ((begun s).setInPort p) 1 := h1
  have hbody : inputBody .value (begun s) =
      .raise ⟨.writeModeError, none, none⟩ (grownBy ((begun s).setInPort p) [operandCell s 1]) := by
    rw [inputBody, inRead_of_value (s := begun s) hp, Result.bind_ok, destination_of_value h1]
    rfl
  rw [runInstr_of_raise hpc hbody]
  rfl

/-- Settles O27: the result of the operation is never formed, so the four storing operations fault alike. -/
theorem valueModeTargetFaults : Obligations.ValueModeTargetFaults := by
  refine fun m1 m2 s hpc => ⟨?storing, fun x p hp h1 => runInstr_inputBody_of_value_target hpc hp h1⟩
  rintro i (rfl | rfl | rfl | rfl) h1 h2 h3 <;> exact runInstr_storeResult_of_value_target _ hpc h1 h2 h3

end Sys2Proof.Machine
end

section
/-! PROOFS. Operand resolution (spec/40_step_engine.md R75, R76): what each mode makes of the raw operand. -/

namespace Sys2Proof.Machine

/-- Settles O9: a Relative source is `MemRead` of a checked sum. -/
theorem valueOfEachMode : Obligations.ValueOfEachMode := by
  refine fun p s => ⟨rfl, rfl, fun hsum => ?sum, fun hover => ?overflow⟩
  case sum => rw [resolveValue, add64_of_sumOk hsum, Result.bind_ok]
  case overflow => rw [resolveValue, add64_of_overflow hover, Result.bind_raise]

/-- Settles O10: a Relative target is the checked sum itself. -/
theorem targetOfEachMode : Obligations.TargetOfEachMode :=
  fun _ _ => ⟨rfl, rfl, add64_of_sumOk, add64_of_overflow⟩

end Sys2Proof.Machine
end

section
/-! PROOFS. Frames (spec/40_step_engine.md R77, R78; spec/60_exceptions.md R139): what any instruction keeps, said once, and
from it the frames of the two groups. -/

namespace Sys2Proof.Machine

/-- What instruction `i`, taken in `s`, may have changed in its next state `t`, completed, faulted or waiting; the status
and the record are said apart (`exec_status_fault`). -/
structure InstrFrame (i : Instr) (s t : State) : Prop where
  mem : t.mem = s.mem ∨ ∃ a r, StoresTo s a i ∧ t.mem = s.mem.write a.toNat r
  rb : t.rb = s.rb ∨ ∃ m1 m2 m3, i = .adjustRelativeBase m1 m2 m3
  image : t.image = s.image
  output : t.output = s.output ∨ ∃ m1 m2 m3, i = .output m1 m2 m3
  inPort : t.inPort = s.inPort ∨ ∃ m1 m2 m3, i = .input m1 m2 m3
  outPort : t.outPort = s.outPort ∨ ∃ m1 m2 m3, i = .output m1 m2 m3
  config : t.config = s.config
  memLen : s.memLen ≤ t.memLen
  trace : t.trace = s.trace ∨ t.trace = s.trace ++ [(s.pc, s.mem.read s.pc.toNat)]

theorem storesTo_begun {i : Instr} {s : State} {a : Word} : StoresTo (begun s) a i ↔ StoresTo s a i := by
  cases i with
  | add | mul | lessThan | equalTo | input => exact target_resolves_begun
  | endOp | output | jumpIfNotZero | jumpIfZero | adjustRelativeBase => exact Iff.rfl

/-- An operation that has come to `u`, whatever status, record and wait the common path then leaves. -/
theorem Effect.instrFrame {i : Instr} {s u : State} (h : Effect i (begun s) u) (x : Status) (f : Option FaultRecord)
    (w : Option IoDir) : InstrFrame i s (((u.setFault f).setStatus x).setWaiting w) where
  mem := h.mem.imp id fun ⟨a, r, hstores, _, hmem, _⟩ => ⟨a, r, storesTo_begun.1 hstores, hmem⟩
  rb := h.rb.imp id fun ⟨m1, m2, m3, hi, _⟩ => ⟨m1, m2, m3, hi⟩
  image := h.image
  output := h.output.imp id fun ⟨m1, m2, m3, hi, _⟩ => ⟨m1, m2, m3, hi⟩
  inPort := h.inPort.imp id And.left
  outPort := h.outPort
  config := h.config
  memLen := by
    obtain ⟨as, _, hlen⟩ := h.memLen
    calc s.memLen ≤ (begun s).memLen := le_memLenAfter ..
      _ ≤ memLenAfter (begun s).memLen as := le_memLenAfter ..
      _ = u.memLen := hlen.symm
  trace := .inr h.trace

theorem InstrFrame.of_wait {i : Instr} {s : State} {d : IoDir} {p : InPort} {o : OutPort} (h : WaitsOn i s d p o) :
    InstrFrame i s (waitOnPort d p o s) where
  mem := .inl rfl
  rb := .inl rfl
  image := rfl
  output := .inl rfl
  inPort := by
    rcases h with ⟨hi, _⟩ | ⟨_, _, hp, _⟩
    · exact .inr hi
    · exact .inl hp
  outPort := by
    rcases h with ⟨_, _, _, ho, _⟩ | ⟨⟨m1, m2, m3, hi, _⟩, _⟩
    · exact .inl ho
    · exact .inr ⟨m1, m2, m3, hi⟩
  config := rfl
  memLen := Nat.le_refl _
  trace := .inl rfl

theorem exec_frame {i : Instr} {s t : State} (h : exec i s = .next t) : InstrFrame i s t := by
  rcases exec_cases h with ⟨k, _, rfl, _⟩ | ⟨_, ⟨u, rfl, he⟩ | ⟨c, u, rfl, he, _⟩ | ⟨d, p, o, rfl, hw⟩⟩
  · exact ⟨.inl rfl, .inl rfl, rfl, .inl rfl, .inl rfl, .inl rfl, rfl, Nat.le_refl _, .inl rfl⟩
  · exact he.instrFrame u.status u.fault none
  · exact he.instrFrame .faulted _ none
  · exact .of_wait hw

theorem exec_status_fault {i : Instr} {s t : State} (h : exec i s = .next t) :
    (t.status = s.status ∧ t.fault = s.fault) ∨ t.status = .faulted ∨
      ((∃ m1 m2 m3, i = .endOp m1 m2 m3) ∧ t.status = .halted ∧ t.fault = s.fault) := by
  rcases exec_cases h with ⟨k, _, rfl, _⟩ | ⟨_, ⟨u, rfl, he⟩ | ⟨c, u, rfl, _, _⟩ | ⟨d, p, o, rfl, _⟩⟩
  · exact .inr (.inl rfl)
  · rcases he.status with hstatus | ⟨hi, hstatus⟩
    · exact .inl ⟨hstatus, he.fault⟩
    · exact .inr (.inr ⟨hi, hstatus, he.fault⟩)
  · exact .inr (.inl rfl)
  · exact .inl ⟨rfl, rfl⟩

/-- Every address reads as before but the one the instruction stores to. -/
theorem InstrFrame.read {i : Instr} {s t : State} (h : InstrFrame i s t) (hwf : s.mem.wf = true) {b : Nat}
    (hb : ∀ a, StoresTo s a i → a.toNat ≠ b) : t.mem.read b = s.mem.read b := by
  rcases h.mem with hmem | ⟨a, r, hstores, hmem⟩ <;> rw [hmem]
  rw [Memory.read_write hwf, if_neg (hb a hstores)]

/-- Settles O35: the four store to what their own target operand resolves to, and are none of the instructions that may
write another field. -/
theorem frameOfStoringInstructions : Obligations.FrameOfStoringInstructions := by
  intro m1 m2 m3 s t i hwf hi hexec
  have hframe := exec_frame hexec
  have hstores : ∀ a, StoresTo s a i → TargetResolves s 3 m3 a := by
    rcases hi with rfl | rfl | rfl | rfl <;> exact fun _ h => h
  refine ⟨fun b hb => hframe.read hwf fun a ha => hb a _ (destination_of_targetResolves (hstores a ha)),
    hframe.rb.resolve_right ?_, hframe.image, hframe.output.resolve_right ?_, hframe.inPort.resolve_right ?_,
    hframe.outPort.resolve_right ?_, hframe.config, (exec_status_fault hexec).imp id fun h => h.resolve_right ?_,
    hframe.memLen, hframe.trace⟩
  all_goals rcases hi with rfl | rfl | rfl | rfl <;> simp

/-- Settles O37: none of the five stores, and each of the other fields has one instruction that may write it. -/
theorem frameOfInstructionsThatStoreNothing : Obligations.FrameOfInstructionsThatStoreNothing := by
  intro m1 m2 m3 s t i hi hexec
  have hframe := exec_frame hexec
  have hmem : t.mem = s.mem := hframe.mem.resolve_right fun ⟨a, _, hstores, _⟩ => by
    rcases hi with rfl | rfl | rfl | rfl | rfl <;> exact hstores
  have hin : t.inPort = s.inPort := hframe.inPort.resolve_right fun ⟨_, _, _, e⟩ => by
    rcases hi with rfl | rfl | rfl | rfl | rfl <;> cases e
  refine ⟨fun b => by rw [hmem], hframe.image, hin, hframe.config, fun hne => hframe.rb.resolve_right ?rb,
    fun hne => ⟨hframe.output.resolve_right ?output, hframe.outPort.resolve_right ?output⟩, ?status, hframe.memLen,
    hframe.trace⟩
  case rb =>
    rintro ⟨_, _, _, e⟩
    rcases hi with rfl | rfl | rfl | rfl | rfl <;> cases e
    exact hne rfl
  case output =>
    rintro ⟨_, _, _, e⟩
    rcases hi with rfl | rfl | rfl | rfl | rfl <;> cases e
    exact hne rfl
  case status =>
    refine (exec_status_fault hexec).imp id (.imp id ?_)
    rintro ⟨⟨_, _, _, rfl⟩, hstatus, hfault⟩
    exact ⟨by simpa using hi, hstatus, hfault⟩

end Sys2Proof.Machine
end

section
/-! PROOFS. The ways an admitted step can go (spec/40_step_engine.md R70 to R73, R79): a fetch fault, a decode fault, the
decoded instruction, or a wait; what each leaves of the status and the trace. -/

namespace Sys2Proof.Machine

/-! ### Whether a step is enabled -/

theorem portAnswers_eq_false_iff {s : State} : portAnswers s = false ↔
    (s.waiting = some .input ∧ (pollIn s.inPort).1 = .notReady) ∨
      (s.waiting = some .output ∧ (pollOut s.outPort).1 = .notReady) := by
  unfold portAnswers
  split
  · next hw => simp [hw]
  · next hw => simp [hw]
  · next hw => simp [hw]

theorem portAnswers_eq_true_iff {s : State} : portAnswers s = true ↔
    s.waiting = none ∨ (s.waiting = some .input ∧ (pollIn s.inPort).1 ≠ .notReady) ∨
      (s.waiting = some .output ∧ (pollOut s.outPort).1 ≠ .notReady) := by
  unfold portAnswers
  split
  · next hw => simp [hw]
  · next hw => simp [hw]
  · next hw => simp [hw]

/-! ### An enabled step, one equation for each way -/

section
variable {s : State} (hs : s.status = .ready ∨ s.status = .running) (hp : portAnswers s = true)
include hs hp

theorem step_of_fetch_fails {k : FaultKind} (h : AccessFails s s.pc k) :
    step s = .next (enterFault none ⟨k, some s.pc, none⟩ s) := by
  rw [step_of_admitted hs hp]
  simp only [fetchDecode, memRead_of_fails h]

theorem step_of_decode_error {e : DecodeError} (ha : AccessOk s s.pc) (hd : decode (s.mem.read s.pc.toNat) = .error e) :
    step s = .next (enterFault (some (s.mem.read s.pc.toNat)) (decodeCause e) (grownBy s [s.pc])) := by
  rw [step_of_admitted hs hp]
  simp only [fetchDecode, memRead_of_accessOk ha, hd]

theorem step_of_decoded {i : Instr} (ha : AccessOk s s.pc) (hd : decode (s.mem.read s.pc.toNat) = .ok i) :
    step s = exec i s := by
  rw [step_of_admitted hs hp]
  simp only [fetchDecode, memRead_of_accessOk ha, hd]

end

/-- Settles O21: a step that waits is enabled exactly when its port answers. -/
theorem stepRunsTheDecodedInstruction : Obligations.StepRunsTheDecodedInstruction :=
  fun _ _ hs hw ha hd => step_of_decoded hs (portAnswers_eq_true_iff.2 hw) ha hd

/-- Settles O25: the fetch raises with the state as it was. -/
theorem fetchFaults : Obligations.FetchFaults :=
  fun _ _ hs hp h => step_of_fetch_fails hs hp h

/-- Settles O26: the decoder's fault is entered in the state the fetch has left. -/
theorem decodeFaults : Obligations.DecodeFaults := by
  intro s e hs hp ha hd
  rw [step_of_decode_error hs hp ha hd]
  cases e <;> rfl

/-! ### Waits -/

theorem sameBlock_waitOnPort (d : IoDir) (i : InPort) (o : OutPort) (s : State) : SameBlock s (waitOnPort d i o s) :=
  ⟨rfl, rfl, rfl, rfl, rfl, rfl, rfl, rfl, rfl, rfl⟩

theorem sameBlock_pollAgain (s : State) : SameBlock s (pollAgain s) := by
  obtain ⟨i, o, e⟩ := pollAgain_eq s
  rw [e]
  exact ⟨rfl, rfl, rfl, rfl, rfl, rfl, rfl, rfl, rfl, rfl⟩

theorem pollAgain_waiting (s : State) : (pollAgain s).waiting = s.waiting := by
  obtain ⟨i, o, e⟩ := pollAgain_eq s
  rw [e]
  rfl

theorem inputBody_of_notReady {s : State} {p : InPort} (m1 : Mode) (h : pollIn s.inPort = (.notReady, p)) :
    inputBody m1 s = .blocked .input p s.outPort := by
  rw [inputBody, inRead_of_notReady h, Result.bind_blocked]

theorem outputBody_of_notReady {s : State} {m1 : Mode} {p : OutPort} (h1 : SourceOk s 1 m1)
    (h : pollOut s.outPort = (.notReady, p)) : outputBody m1 s = .blocked .output s.inPort p := by
  rw [outputBody, source_of_sourceOk h1, Result.bind_ok,
    outWrite_of_notReady (s := grownBy s (sourceCells s 1 m1)) _ h, Result.bind_blocked]
  rfl

/-- Settles O33: `Input` asks its port first, and `Output` once it has its Word; the block is then as before the step. -/
theorem notReadyPortChangesNothing : Obligations.NotReadyPortChangesNothing := by
  refine fun m1 m2 m3 s ha => ⟨fun p hp => ?input, fun p h1 hp => ?output⟩
  case input =>
    exact ⟨_, runInstr_of_blocked ha (inputBody_of_notReady (s := begun s) m1 hp), sameBlock_waitOnPort .., rfl, rfl, rfl⟩
  case output =>
    exact ⟨_, runInstr_of_blocked ha (outputBody_of_notReady (source_good_begun.2 h1) hp), sameBlock_waitOnPort ..,
      rfl, rfl, rfl⟩

/-! ### The status and the trace after a step -/

/-- Settles O23: by the status each way of an admitted step leaves. -/
theorem admittedStepAnswersAndItsStatus : Obligations.AdmittedStepAnswersAndItsStatus := by
  intro s hs
  obtain ⟨t, ht⟩ := step_answers hs
  refine ⟨t, ht, ?_⟩
  obtain ⟨_, ⟨_, rfl⟩ | ⟨_, ⟨k, _, rfl⟩ | ⟨_, e, _, rfl⟩ | ⟨_, i, _, he⟩⟩⟩ := step_cases ht
  · obtain ⟨_, _, _, _, _, _, hstatus, _⟩ := sameBlock_pollAgain s
    exact .inl hstatus
  · exact .inr (.inr rfl)
  · exact .inr (.inr rfl)
  · rcases exec_status_fault he with ⟨hstatus, _⟩ | hstatus | ⟨_, hstatus, _⟩
    · exact .inl hstatus
    · exact .inr (.inr hstatus)
    · exact .inr (.inl hstatus)

/-- A decoded instruction makes its trace entry, unless it waits. -/
theorem exec_traces_or_waits {i : Instr} {s t : State} (ha : AccessOk s s.pc) (h : exec i s = .next t) :
    t.trace = s.trace ++ [(s.pc, s.mem.read s.pc.toNat)] ∨
      ∃ d p o, t = waitOnPort d p o s ∧ WaitsOn i s d p o := by
  rcases exec_cases h with ⟨k, hna, _⟩ | ⟨_, ⟨u, rfl, he⟩ | ⟨c, u, rfl, he, _⟩ | hwait⟩
  · exact absurd ha hna
  · exact .inl he.trace
  · exact .inl he.trace
  · exact .inr hwait

/-- Settles O40: the fetch and decode faults come before the trace entry, and a wait takes it back. -/
theorem oneTraceEntryForEachInstruction : Obligations.OneTraceEntryForEachInstruction := by
  intro s t h
  obtain ⟨_, ⟨hp, rfl⟩ | ⟨_, ⟨k, hna, rfl⟩ | ⟨_, e, hd, rfl⟩ | ⟨ha, i, hd, he⟩⟩⟩ := step_cases h
  · have hport := portAnswers_eq_false_iff.1 hp
    refine .inr (.inr ⟨sameBlock_pollAgain s, ?_, hport.imp id .inl⟩)
    rw [pollAgain_waiting]
    rcases hport with ⟨hw, _⟩ | ⟨hw, _⟩ <;> simp [hw]
  · exact .inr (.inl ⟨rfl, rfl, fun hx => hna hx.1⟩)
  · exact .inr (.inl ⟨rfl, rfl, by simp [hd]⟩)
  · rcases exec_traces_or_waits ha he with htrace | ⟨d, p, o, rfl, hw⟩
    · exact .inl ⟨htrace, i, hd⟩
    · refine .inr (.inr ⟨sameBlock_waitOnPort .., Option.some_ne_none d, .inr (.inr ?_)⟩)
      rcases hw with ⟨⟨m1, m2, m3, rfl⟩, _, _, _, hn⟩ | ⟨⟨m1, m2, m3, rfl, h1⟩, _, _, _, hn⟩
      · exact .inl ⟨m1, m2, m3, hd, hn⟩
      · exact .inr ⟨m1, m2, m3, hd, h1, hn⟩

end Sys2Proof.Machine
end

section
/-! PROOFS. A step inside a RUN (spec/40_step_engine.md R80): no operation reads the status, so each commutes with taking
Running for Ready. -/

namespace Sys2Proof.Machine

@[simp] theorem asRunning_pc (s : State) : (asRunning s).pc = s.pc := rfl
@[simp] theorem asRunning_mem (s : State) : (asRunning s).mem = s.mem := rfl

theorem accessOk_asRunning {s : State} {a : Word} : AccessOk (asRunning s) a ↔ AccessOk s a := Iff.rfl

/-! ### Operations that do not read the status -/

/-- A result, its state seen inside a RUN. -/
def Result.asRunning {α : Type} : Result α → Result α
  | .ok x s => .ok x (Machine.asRunning s)
  | .raise c s => .raise c (Machine.asRunning s)
  | .blocked d i o => .blocked d i o

/-- Inside a RUN the operation answers what it answers under STEP, up to the status. -/
def StatusFree {α : Type} (f : State → Result α) : Prop := ∀ s, f (asRunning s) = (f s).asRunning

/-- What answers as inside a RUN is so continued, if the continuation is. -/
theorem Result.asRunning_bind {α β : Type} {r r' : Result α} {f g : α → State → Result β} (hr : r' = r.asRunning)
    (hfg : ∀ x s, g x (Machine.asRunning s) = (f x s).asRunning) : r'.bind g = (r.bind f).asRunning := by
  subst hr
  cases r with
  | ok x s => exact hfg x s
  | raise c s => rfl
  | blocked d i o => rfl

theorem Result.asRunning_undoTo {α : Type} {r r' : Result α} (hr : r' = r.asRunning) (s : State) :
    r'.undoTo (Machine.asRunning s) = (r.undoTo s).asRunning := by
  subst hr
  cases r <;> rfl

theorem StatusFree.bind {α β : Type} {f : State → Result α} {g : α → State → Result β} (hf : StatusFree f)
    (hg : ∀ x, StatusFree (g x)) : StatusFree fun s => (f s).bind g :=
  fun s => Result.asRunning_bind (hf s) hg

/-! ### The primitives -/

theorem narrow_statusFree (z : Int) : StatusFree (narrow z) := by
  intro s
  by_cases h : s.config.ovfTraps = true ∧ (z < -2 ^ 63 ∨ 2 ^ 63 ≤ z)
  · rw [(narrow_traps_or_wraps z s).1 h, (narrow_traps_or_wraps z (asRunning s)).1 h]
    rfl
  · rw [(narrow_traps_or_wraps z s).2 h, (narrow_traps_or_wraps z (asRunning s)).2 h]
    rfl

theorem add64_statusFree (x y : Word) : StatusFree (add64 x y) := narrow_statusFree _

theorem mul64_statusFree (x y : Word) : StatusFree (mul64 x y) := narrow_statusFree _

theorem memRead_statusFree (a : Word) : StatusFree (memRead a) := by
  intro s
  rcases accessOk_cases s a with h | h | ⟨h, hc⟩
  · rw [memRead_of_accessOk h, memRead_of_accessOk (accessOk_asRunning.2 h)]
    rfl
  · rw [memRead_negative h, memRead_negative h]
    rfl
  · rw [memRead_aboveCap h hc, memRead_aboveCap (s := asRunning s) h hc]
    rfl

theorem memWrite_statusFree (a v : Word) : StatusFree (memWrite a v) := by
  intro s
  rcases accessOk_cases s a with h | h | ⟨h, hc⟩
  · rw [memWrite_of_accessOk h, memWrite_of_accessOk (accessOk_asRunning.2 h)]
    rfl
  · rw [memWrite_negative v h, memWrite_negative v h]
    rfl
  · rw [memWrite_aboveCap v h hc, memWrite_aboveCap (s := asRunning s) v h hc]
    rfl

theorem inRead_statusFree : StatusFree inRead := by
  intro s
  rcases inRead_cases s with ⟨x, p, hp, e⟩ | ⟨k, p, hp, e⟩ | ⟨p, hp, e⟩ <;> rw [e]
  · exact inRead_of_value (s := asRunning s) hp
  · exact inRead_of_error (s := asRunning s) hp
  · exact inRead_of_notReady (s := asRunning s) hp

theorem outWrite_statusFree (x : Word) : StatusFree (outWrite x) := by
  intro s
  rcases outWrite_cases x s with ⟨p, hp, e⟩ | ⟨k, p, hp, e⟩ | ⟨p, hp, e⟩ <;> rw [e]
  · exact outWrite_of_accepted (s := asRunning s) x hp
  · exact outWrite_of_error (s := asRunning s) x hp
  · exact outWrite_of_notReady (s := asRunning s) x hp

theorem advance_statusFree (n : Nat) : StatusFree (advance n) :=
  fun s => Result.asRunning_bind (add64_statusFree s.pc _ s) fun _ _ => rfl

theorem store_statusFree (a v : Word) (n : Nat) : StatusFree (store a v n) :=
  fun s => Result.asRunning_undoTo (Result.asRunning_bind (memWrite_statusFree a v s) fun _ => advance_statusFree n) s

/-! ### Operands -/

theorem fetchOperand_statusFree (k : Nat) : StatusFree (fetchOperand k) :=
  fun s => Result.asRunning_bind (add64_statusFree s.pc _ s) memRead_statusFree

theorem relativeAddress_statusFree (p : Word) : StatusFree fun s => add64 p s.rb s := fun s => add64_statusFree p s.rb s

theorem resolveValue_statusFree (m : Mode) (p : Word) : StatusFree (resolveValue m p) := by
  cases m with
  | pointer => exact memRead_statusFree p
  | value => exact fun _ => rfl
  | relative => exact (relativeAddress_statusFree p).bind memRead_statusFree

theorem resolveTarget_statusFree (m : Mode) (p : Word) : StatusFree (resolveTarget m p) := by
  cases m with
  | pointer => exact fun _ => rfl
  | value => exact fun _ => rfl
  | relative => exact relativeAddress_statusFree p

theorem source_statusFree (k : Nat) (m : Mode) : StatusFree (source k m) :=
  (fetchOperand_statusFree k).bind (resolveValue_statusFree m)

theorem destination_statusFree (k : Nat) (m : Mode) : StatusFree (destination k m) :=
  (fetchOperand_statusFree k).bind (resolveTarget_statusFree m)

/-! ### The operations of the instructions -/

theorem storeResult_statusFree {op : Word → Word → State → Result Word} (hop : ∀ x y, StatusFree (op x y))
    (m1 m2 m3 : Mode) : StatusFree (storeResult op m1 m2 m3) :=
  (source_statusFree 1 m1).bind fun x =>
  (source_statusFree 2 m2).bind fun y =>
  (destination_statusFree 3 m3).bind fun t =>
  (hop x y).bind fun r =>
  store_statusFree t r 4

theorem jumpWhen_statusFree (cond : Word → Bool) (m1 m2 : Mode) : StatusFree (jumpWhen cond m1 m2) := by
  refine (source_statusFree 1 m1).bind fun c => ?_
  cases cond c with
  | true => exact (source_statusFree 2 m2).bind fun _ _ => rfl
  | false => exact advance_statusFree 3

theorem adjustBody_statusFree (m1 : Mode) : StatusFree (adjustBody m1) :=
  (source_statusFree 1 m1).bind fun x s =>
  Result.asRunning_bind (add64_statusFree s.rb x s) fun r u =>
  Result.asRunning_undoTo (advance_statusFree 2 (u.setRb r)) u

theorem inputBody_statusFree (m1 : Mode) : StatusFree (inputBody m1) :=
  inRead_statusFree.bind fun x => (destination_statusFree 1 m1).bind fun t => store_statusFree t x 2

theorem outputBody_statusFree (m1 : Mode) : StatusFree (outputBody m1) :=
  (source_statusFree 1 m1).bind fun x s =>
  Result.asRunning_bind (outWrite_statusFree x s) fun _ u => Result.asRunning_undoTo (advance_statusFree 2 u) s

/-- `End` too, though it writes the status: Halted is Halted inside a RUN. -/
theorem bodyOf_statusFree (i : Instr) : StatusFree (bodyOf i) := by
  cases i with
  | endOp _ _ _ => exact fun _ => rfl
  | add m1 m2 m3 => exact storeResult_statusFree add64_statusFree m1 m2 m3
  | mul m1 m2 m3 => exact storeResult_statusFree mul64_statusFree m1 m2 m3
  | input m1 _ _ => exact inputBody_statusFree m1
  | output m1 _ _ => exact outputBody_statusFree m1
  | jumpIfNotZero m1 m2 _ => exact jumpWhen_statusFree isNonZero m1 m2
  | jumpIfZero m1 m2 _ => exact jumpWhen_statusFree isZero m1 m2
  | lessThan m1 m2 m3 => exact storeResult_statusFree (fun _ _ _ => rfl) m1 m2 m3
  | equalTo m1 m2 m3 => exact storeResult_statusFree (fun _ _ _ => rfl) m1 m2 m3
  | adjustRelativeBase m1 _ _ => exact adjustBody_statusFree m1

/-! ### The common path and the step -/

theorem finishInstr_asRunning (s : State) (v : Word) (r : Result Unit) :
    finishInstr (asRunning s) v r.asRunning = asRunning (finishInstr s v r) := by cases r <;> rfl

theorem exec_asRunning {s : State} (h : AccessOk s s.pc) (i : Instr) :
    exec i (asRunning s) = mapNext asRunning (exec i s) := by
  have hbegun : begun (asRunning s) = asRunning (begun s) := rfl
  rw [exec_eq_runInstr, exec_eq_runInstr, runInstr_eq_finishInstr h, runInstr_eq_finishInstr (accessOk_asRunning.2 h),
    hbegun, bodyOf_statusFree, asRunning_mem, asRunning_pc, finishInstr_asRunning]
  rfl

theorem pollAgain_asRunning (s : State) : pollAgain (asRunning s) = asRunning (pollAgain s) := by
  have hwaiting : (asRunning s).waiting = s.waiting := rfl
  unfold pollAgain
  rw [hwaiting]
  split <;> rfl

theorem asRunning_status_of_ready {s : State} (h : s.status = .ready) : (asRunning s).status = .running := if_pos h

/-- Settles O24: each way a step can go does not depend on which of the two statuses admitted it. -/
theorem runStepsAsStepDoes : Obligations.RunStepsAsStepDoes := by
  intro s hready
  have hs : s.status = .ready ∨ s.status = .running := .inl hready
  have hr : (asRunning s).status = .ready ∨ (asRunning s).status = .running := .inr (asRunning_status_of_ready hready)
  cases hp : portAnswers s with
  | false =>
    rw [step_of_waiting hs hp, step_of_waiting (s := asRunning s) hr hp, pollAgain_asRunning]
    rfl
  | true =>
    have hp' : portAnswers (asRunning s) = true := hp
    rcases fetchDecode_cases s with ⟨k, _, hk, _⟩ | ⟨ha, e, hd, _⟩ | ⟨ha, i, hd, _⟩
    · rw [step_of_fetch_fails hs hp hk, step_of_fetch_fails (s := asRunning s) hr hp' hk]
      rfl
    · rw [step_of_decode_error hs hp ha hd, step_of_decode_error (s := asRunning s) hr hp' ha hd]
      rfl
    · rw [step_of_decoded hs hp ha hd, step_of_decoded (s := asRunning s) hr hp' ha hd, exec_asRunning ha]

end Sys2Proof.Machine
end

section
/-! PROOFS. `End` (spec/41_end.md R90): it halts without reading an operand cell and without moving `pc`. -/

namespace Sys2Proof.Machine

/-- Halting where an instruction begins, its wait over, is completing it at its own `pc` with no operand cell touched. -/
theorem setWaiting_halted_begun (s : State) :
    ((begun s).setStatus .halted).setWaiting none = { completed s [] s.pc with status := .halted } := rfl

/-- Settles O20: the operation of `End` cannot raise or wait, so the common path ends in the state it halts in. -/
theorem endHalts : Obligations.EndHalts := by
  intro m1 m2 m3 s hpc
  calc exec (.endOp m1 m2 m3) s
    _ = runInstr (fun s => .ok () (s.setStatus .halted)) s := exec_endOp m1 m2 m3 s
    _ = .next (((begun s).setStatus .halted).setWaiting none) := runInstr_of_ok hpc rfl
    _ = .next { completed s [] s.pc with status := .halted } := congrArg _ (setWaiting_halted_begun s)

end Sys2Proof.Machine
end

section
/-! PROOFS. `Add` and `Mul` on good operands (spec/42_arithmetic.md R91, R92): the checked sum or product is stored. -/

namespace Sys2Proof.Machine

/-- The state a storing operation completes with, in the words of the statements. -/
theorem setWaiting_stored_begun (s : State) (as : List Word) (m : Memory) (a : Word) :
    (((grownBy (begun s) as).setMem m).setPc a).setWaiting none = { completed s as a with mem := m } := rfl

/-- A storing instruction with good operands, whose operation gives the result `r` without touching the state. -/
theorem runInstr_storeResult_of_fourCellOk {op : Word → Word → State → Result Word} {m1 m2 m3 : Mode} {s : State}
    {a r : Word} (h : FourCellOk s m1 m2 m3 a)
    (hop : op (sourceValue s 1 m1) (sourceValue s 2 m2) (grownBy (begun s) (fourCellReads s m1 m2)) =
      .ok r (grownBy (begun s) (fourCellReads s m1 m2))) :
    runInstr (storeResult op m1 m2 m3) s = .next
      { completed s (fourCellReads s m1 m2 ++ [a]) (s.pc + 4) with mem := s.mem.write a.toNat r } := by
  obtain ⟨hpc, h1, h2, ⟨h3, ha⟩, hp⟩ := h
  have hwrite : AccessOk (grownBy (begun s) (fourCellReads s m1 m2)) a := ha
  have hbody : storeResult op m1 m2 m3 (begun s) = .ok ()
      (((grownBy (begun s) (fourCellReads s m1 m2 ++ [a])).setMem (s.mem.write a.toNat r)).setPc (s.pc + 4)) := by
    rw [storeResult_of_operands (source_good_begun.2 h1) (source_good_begun.2 h2) (target_resolves_begun.2 h3),
      fourCellReads_begun, sourceValue_begun, sourceValue_begun, hop, Result.bind_ok, write_of_accessOk hwrite hp,
      grownBy_grownBy]
    rfl
  rw [runInstr_of_ok hpc hbody, setWaiting_stored_begun]

/-- Settles O11: the checked sum of the two sources is their sum modulo 2^64. -/
theorem addStoresTheSum : Obligations.AddStoresTheSum := by
  intro m1 m2 m3 a s h hsum
  rw [exec_add]
  exact runInstr_storeResult_of_fourCellOk h (add64_of_sumOk hsum)

/-- Settles O12: the checked product of the two sources is the low 64 bits of the signed product. -/
theorem mulStoresTheProduct : Obligations.MulStoresTheProduct := by
  intro m1 m2 m3 a s h hprod
  rw [exec_mul]
  exact runInstr_storeResult_of_fourCellOk h (mul64_of_productOk hprod)

end Sys2Proof.Machine
end

section
/-! PROOFS. `Input` and `Output` (spec/43_io.md R93 to R96): what each comes to when its port delivers, accepts or answers an
error, and what they may change. -/

namespace Sys2Proof.Machine

/-! ### The operation of `Input`, by what the port answers -/

theorem target_resolves_setInPort {s : State} {p : InPort} {k : Nat} {m : Mode} {a : Word} :
    TargetResolves (s.setInPort p) k m a ↔ TargetResolves s k m a := by cases m <;> exact Iff.rfl

theorem inputBody_of_value {s : State} {m1 : Mode} {a x : Word} {p : InPort} (hp : pollIn s.inPort = (.value x, p))
    (h1 : TargetResolves s 1 m1 a) :
    inputBody m1 s = store a x 2 (grownBy (s.setInPort p) [operandCell s 1]) := by
  rw [inputBody, inRead_of_value hp, Result.bind_ok, destination_of_targetResolves (target_resolves_setInPort.2 h1),
    Result.bind_ok]
  rfl

theorem inputBody_of_error {s : State} {k : IoKind} {p : InPort} (m1 : Mode) (hp : pollIn s.inPort = (.error k, p)) :
    inputBody m1 s = .raise ⟨.ioError, none, some (.input, k)⟩ (s.setInPort p) := by
  rw [inputBody, inRead_of_error hp, Result.bind_raise]

/-- Settles O15: the delivered Word reaches the write, which a good target and a good new `pc` let through. -/
theorem inputStoresTheDeliveredWord : Obligations.InputStoresTheDeliveredWord := by
  rintro m1 m2 m3 a x p s hpc hp ⟨h1, ha⟩ hsum
  have hwrite : AccessOk (grownBy ((begun s).setInPort p) [operandCell s 1]) a := ha
  have hbody : inputBody m1 (begun s) = .ok () (((grownBy ((begun s).setInPort p) [operandCell s 1, a]).setMem
      (s.mem.write a.toNat x)).setPc (s.pc + 2)) := by
    rw [inputBody_of_value (s := begun s) hp (target_resolves_begun.2 h1), operandCell_begun,
      write_of_accessOk hwrite hsum, grownBy_grownBy]
    rfl
  rw [exec_input, runInstr_of_ok hpc hbody]
  rfl

/-! ### The operation of `Output`, by what the port answers -/

theorem outputBody_of_accepted {s : State} {m1 : Mode} {p : OutPort} (h1 : SourceOk s 1 m1)
    (hp : pollOut s.outPort = (.accepted, p)) (hsum : SumOk s s.pc 2) :
    outputBody m1 s = .ok () ((((grownBy s (sourceCells s 1 m1)).setOutPort p).setOutput
      (s.output ++ [sourceValue s 1 m1])).setPc (s.pc + 2)) := by
  have hadvance := advance_of_sumOk (n := 2) (s := ((grownBy s (sourceCells s 1 m1)).setOutPort p).setOutput
    (s.output ++ [sourceValue s 1 m1])) hsum
  rw [outputBody, source_of_sourceOk h1, Result.bind_ok,
    outWrite_of_accepted (s := grownBy s (sourceCells s 1 m1)) _ hp, Result.bind_ok]
  exact congrArg (Result.undoTo · _) hadvance

theorem outputBody_of_error {s : State} {m1 : Mode} {k : OutError} {p : OutPort} (h1 : SourceOk s 1 m1)
    (hp : pollOut s.outPort = (.error k, p)) :
    outputBody m1 s = .raise ⟨.ioError, none, some (.output, outErrorKind k)⟩
      ((grownBy s (sourceCells s 1 m1)).setOutPort p) := by
  rw [outputBody, source_of_sourceOk h1, Result.bind_ok,
    outWrite_of_error (s := grownBy s (sourceCells s 1 m1)) _ hp, Result.bind_raise]

/-- Settles O16: the source's value is sent, and the new `pc` takes nothing back. -/
theorem outputSendsItsOperand : Obligations.OutputSendsItsOperand := by
  intro m1 m2 m3 p s hpc h1 hp hsum
  have hbody := outputBody_of_accepted (s := begun s) (source_good_begun.2 h1) hp hsum
  rw [sourceCells_begun, sourceValue_begun] at hbody
  rw [exec_output, runInstr_of_ok hpc hbody]
  rfl

/-- Settles O32: `Input` polls before it looks at its target, and `Output` once it has its Word; the error is raised
there. -/
theorem portErrorsFault : Obligations.PortErrorsFault := by
  refine fun m1 m2 m3 s hpc => ⟨fun k p hp => ?input, fun k p h1 hp => ?output⟩
  case input =>
    rw [exec_input, runInstr_of_raise hpc (inputBody_of_error (s := begun s) m1 hp)]
    rfl
  case output =>
    rw [exec_output, runInstr_of_raise hpc (outputBody_of_error (s := begun s) (source_good_begun.2 h1) hp),
      sourceCells_begun]
    cases k <;> rfl

/-! ### What they may change -/

/-- Only the fetch fault of an `Input` comes before its poll. -/
theorem exec_input_inPort {m1 m2 m3 : Mode} {s t : State} (h : exec (.input m1 m2 m3) s = .next t) :
    t.inPort = s.inPort ∨ t.inPort = (pollIn s.inPort).2 := by
  rcases exec_cases h with ⟨k, _, rfl, _⟩ | ⟨ha, _⟩
  · exact .inl rfl
  · exact .inr (exec_input_polls ha h)

/-- Settles O36: the frame of any instruction, in which `Input` may write its target and its port alone. -/
theorem frameOfInput : Obligations.FrameOfInput := by
  intro m1 m2 m3 s t hwf hexec
  have hframe := exec_frame hexec
  refine ⟨fun b hb => hframe.read hwf fun a ha => hb a _ (destination_of_targetResolves ha),
    hframe.rb.resolve_right ?_, hframe.image, hframe.output.resolve_right ?_, hframe.outPort.resolve_right ?_,
    hframe.config, exec_input_inPort hexec, (exec_status_fault hexec).imp id fun h => h.resolve_right ?_,
    hframe.memLen, hframe.trace⟩
  all_goals simp

/-- An instruction leaves the output as it was, or is an `Output` that has sent its operand. -/
theorem exec_output_eq_or_append {i : Instr} {s t : State} (h : exec i s = .next t) : t.output = s.output ∨
    ∃ m1 m2 m3, i = .output m1 m2 m3 ∧ SourceOk s 1 m1 ∧ t.output = s.output ++ [sourceValue s 1 m1] := by
  rcases exec_cases h with ⟨k, _, rfl, _⟩ | ⟨_, ⟨u, rfl, he⟩ | ⟨c, u, rfl, _, hleft⟩ | ⟨d, p, o, rfl, _⟩⟩
  · exact .inl rfl
  · refine he.output.imp id ?_
    rintro ⟨m1, m2, m3, hi, _, h1, hu⟩
    exact ⟨m1, m2, m3, hi, source_good_begun.1 h1, by simpa using hu⟩
  · obtain ⟨_, _, _, hu, _⟩ := hleft
    exact .inl hu
  · exact .inl rfl

/-- Settles O39: a step that takes a fetch or decode fault, or waits, has sent nothing. -/
theorem outputOnlyGrowsByOutput : Obligations.OutputOnlyGrowsByOutput := by
  intro s t hstep
  obtain ⟨_, ⟨_, rfl⟩ | ⟨_, ⟨k, _, rfl⟩ | ⟨_, e, _, rfl⟩ | ⟨_, i, hd, he⟩⟩⟩ := step_cases hstep
  · obtain ⟨_, _, _, _, _, _, _, _, hout, _⟩ := sameBlock_pollAgain s
    exact .inl hout
  · exact .inl rfl
  · exact .inl rfl
  · refine (exec_output_eq_or_append he).imp id ?_
    rintro ⟨m1, m2, m3, rfl, h⟩
    exact ⟨m1, m2, m3, hd, h⟩

end Sys2Proof.Machine
end

section
/-! PROOFS. A step that waits (spec/43_io.md R97; spec/60_exceptions.md R150): which commands find the block busy, and what
the others leave of the wait. -/

namespace Sys2Proof.Machine

/-- A waiting step is a pending STEP when Ready and part of a RUN when Running, so the block is not idle. -/
theorem idle_eq_false_of_waiting {s : State} {d : IoDir} (hw : s.waiting = some d)
    (hs : s.status = .ready ∨ s.status = .running) : idle s = false := by
  rcases hs with hs | hs <;> simp [idle, State.pendingStep, hs, hw]

theorem peekCommand_waiting (a : Word) (s : State) : (peekCommand a s).1.waiting = s.waiting := by
  rcases memRead_cases a s with ⟨_, e⟩ | ⟨_, e, _⟩
  · rw [peekCommand, e]; rfl
  · rw [peekCommand, e]

theorem pokeCommand_waiting (a v : Word) (s : State) : (pokeCommand a v s).1.waiting = s.waiting := by
  rcases memWrite_cases a v s with ⟨_, e⟩ | ⟨_, e, _⟩
  · rw [pokeCommand, e]; rfl
  · rw [pokeCommand, e]

/-- The commands that would end the wait are refused while the block is not idle; the others do not touch it. -/
theorem command_waiting {c : Command} {s : State} (hidle : idle s = false) (hstep : c ≠ .step)
    (hload : ∀ img, c ≠ .load img) : (command c s).1.waiting = s.waiting := by
  cases c with
  | step => exact absurd rfl hstep
  | load img => exact absurd rfl (hload img)
  | reset scope => cases scope <;> simp [command, hidle]
  | wire i o => simp [command, hidle]
  | peek a =>
    rw [command]
    split
    · exact peekCommand_waiting a s
    · rfl
  | poke a v =>
    rw [command]
    split
    · exact pokeCommand_waiting a v s
    · rfl
  | setPc | run | traceRead | dump => rw [command]; split <;> rfl

/-- Settles O59: the block is not idle while a step waits, and a step whose port is not ready only polls it again. -/
theorem aWaitingStepHoldsTheBlock : Obligations.AWaitingStepHoldsTheBlock := by
  refine fun s d hw hs => ⟨fun c hstep hload => ?commands, fun hport => ?steps⟩
  case commands => rw [command_waiting (idle_eq_false_of_waiting hw hs) hstep hload, hw]
  case steps =>
    have hp : portAnswers s = false := portAnswers_eq_false_iff.2 (by simpa [hw] using hport)
    exact ⟨pollAgain s, step_of_waiting hs hp, sameBlock_pollAgain s, (pollAgain_waiting s).trans hw⟩

end Sys2Proof.Machine
end

section
/-! PROOFS. The two jumps on good operands (spec/44_jumps.md R100, R101): the target's value when the condition holds,
otherwise `pc + 3`. -/

namespace Sys2Proof.Machine

/-- An operation that has read the cells `as` and set `pc`, its wait over, in the words of the statements. -/
theorem setWaiting_setPc_begun (s : State) (as : List Word) (a : Word) :
    ((grownBy (begun s) as).setPc a).setWaiting none = completed s as a := rfl

section
variable {cond : Word → Bool} {m1 m2 : Mode} {s : State} (hpc : AccessOk s s.pc) (h1 : SourceOk s 1 m1)
include hpc h1

theorem runInstr_jumpWhen_taken (hcond : cond (sourceValue s 1 m1) = true) (h2 : SourceOk s 2 m2) :
    runInstr (jumpWhen cond m1 m2) s =
      .next (completed s (sourceCells s 1 m1 ++ sourceCells s 2 m2) (sourceValue s 2 m2)) := by
  have hbody : jumpWhen cond m1 m2 (begun s) = .ok ()
      ((grownBy (begun s) (sourceCells s 1 m1 ++ sourceCells s 2 m2)).setPc (sourceValue s 2 m2)) := by
    rw [jumpWhen_taken (source_good_begun.2 h1) (source_good_begun.2 h2) (by rwa [sourceValue_begun]),
      sourceCells_begun, sourceCells_begun, sourceValue_begun]
  rw [runInstr_of_ok hpc hbody, setWaiting_setPc_begun]

/-- A jump that is not taken asks nothing of operand 2 (D10). -/
theorem runInstr_jumpWhen_not_taken (hcond : cond (sourceValue s 1 m1) = false) (hsum : SumOk s s.pc 3) :
    runInstr (jumpWhen cond m1 m2) s = .next (completed s (sourceCells s 1 m1) (s.pc + 3)) := by
  have hbody : jumpWhen cond m1 m2 (begun s) = .ok ()
      ((grownBy (begun s) (sourceCells s 1 m1)).setPc (s.pc + 3)) := by
    rw [jumpWhen_not_taken (source_good_begun.2 h1) (by rwa [sourceValue_begun]), sourceCells_begun]
    exact advance_of_sumOk (n := 3) (s := grownBy (begun s) (sourceCells s 1 m1)) hsum
  rw [runInstr_of_ok hpc hbody, setWaiting_setPc_begun]

end

/-- Settles O17: the condition holds exactly when the first source's value is not the zero Word. -/
theorem jumpIfNotZeroJumpsOrFallsThrough : Obligations.JumpIfNotZeroJumpsOrFallsThrough := by
  intro m1 m2 m3 s hpc h1
  rw [exec_jumpIfNotZero]
  constructor
  · intro hne h2
    exact runInstr_jumpWhen_taken hpc h1 (by simpa [isNonZero_eq] using hne) h2
  · intro heq hsum
    exact runInstr_jumpWhen_not_taken hpc h1 (by simpa [isNonZero_eq] using heq) hsum

/-- Settles O18: the condition holds exactly when the first source's value is the zero Word. -/
theorem jumpIfZeroJumpsOrFallsThrough : Obligations.JumpIfZeroJumpsOrFallsThrough := by
  intro m1 m2 m3 s hpc h1
  rw [exec_jumpIfZero]
  constructor
  · intro heq h2
    exact runInstr_jumpWhen_taken hpc h1 (by simpa [isZero_eq] using heq) h2
  · intro hne hsum
    exact runInstr_jumpWhen_not_taken hpc h1 (by simpa [isZero_eq] using hne) hsum

end Sys2Proof.Machine
end

section
/-! PROOFS. `LessThan` and `EqualTo` on good operands (spec/45_compare.md R102, R103): exactly 1 or 0 is stored. No sum of
the sources is formed, so OVF_TRAPS asks nothing of their values. -/

namespace Sys2Proof.Machine

theorem lessThanCell_eq (x y : Word) : lessThanCell x y = if x.toInt < y.toInt then 1 else 0 := rfl

/-- Settles O13: the cell stored is 1 or 0 by the signed order of the two sources. -/
theorem lessThanStoresOneOrZero : Obligations.LessThanStoresOneOrZero := by
  intro m1 m2 m3 a s h
  rw [exec_lessThan, ← lessThanCell_eq]
  exact runInstr_storeResult_of_fourCellOk h rfl

/-- Settles O14: two Words are equal exactly when their signed values are (`equalCell_eq`). -/
theorem equalToStoresOneOrZero : Obligations.EqualToStoresOneOrZero := by
  intro m1 m2 m3 a s h
  rw [exec_equalTo, ← equalCell_eq]
  exact runInstr_storeResult_of_fourCellOk h rfl

end Sys2Proof.Machine
end

section
/-! PROOFS. `AdjustRelativeBase` on a good source (spec/46_relbase.md R104): the checked sum of the old `rb` and the operand
becomes the new `rb`. -/

namespace Sys2Proof.Machine

/-- The operation on a good source, when neither the new `rb` nor the new `pc` overflows. -/
theorem adjustBody_of_sourceOk {s : State} {m1 : Mode} (h1 : SourceOk s 1 m1)
    (hrb : SumOk s s.rb (sourceValue s 1 m1)) (hpc : SumOk s s.pc 2) :
    adjustBody m1 s =
      .ok () (((grownBy s (sourceCells s 1 m1)).setRb (s.rb + sourceValue s 1 m1)).setPc (s.pc + 2)) := by
  have hsum : add64 s.rb (sourceValue s 1 m1) (grownBy s (sourceCells s 1 m1)) =
      .ok (s.rb + sourceValue s 1 m1) (grownBy s (sourceCells s 1 m1)) := add64_of_sumOk hrb
  have hadvance := advance_of_sumOk (n := 2)
    (s := (grownBy s (sourceCells s 1 m1)).setRb (s.rb + sourceValue s 1 m1)) hpc
  rw [adjustBody, source_of_sourceOk h1, Result.bind_ok, grownBy_rb, hsum, Result.bind_ok]
  exact congrArg (Result.undoTo · _) hadvance

/-- Settles O19: the operation resolves its operand where the instruction begins, with the old `rb`, and completes. -/
theorem adjustRelativeBaseAddsItsOperand : Obligations.AdjustRelativeBaseAddsItsOperand := by
  intro m1 m2 m3 s haccess h1 hrb hpc
  have hrb' : SumOk (begun s) (begun s).rb (sourceValue (begun s) 1 m1) := by rwa [sourceValue_begun]
  have hbody := adjustBody_of_sourceOk (s := begun s) (source_good_begun.2 h1) hrb' hpc
  rw [sourceCells_begun, sourceValue_begun] at hbody
  rw [exec_adjustRelativeBase, runInstr_of_ok haccess hbody]
  rfl

end Sys2Proof.Machine
end

section
/-! PROOFS. The host commands (spec/47_host_commands.md R110 to R119): when each command is admitted, and what it then
leaves and replies. -/

namespace Sys2Proof.Machine

/-! ### A machine that takes no step -/

theorem step_of_halted {s : State} (h : s.status = .halted) : step s = .refused .halted := by simp only [step, h]

theorem step_of_faulted {s : State} (h : s.status = .faulted) : step s = .fault (.stopped s.fault) := by
  simp only [step, h]

theorem step_of_unloaded {s : State} (h : s.status = .unloaded) : step s = .refused .notLoaded := by simp only [step, h]

/-- Settles O22: one equation of the step for each of the three statuses. -/
theorem stoppedMachineTakesNoStep : Obligations.StoppedMachineTakesNoStep :=
  fun _ => ⟨step_of_halted, step_of_faulted, step_of_unloaded⟩

/-! ### When a command is admitted -/

theorem idle_eq_true_iff {s : State} : idle s = true ↔ s.status ≠ .running ∧ s.pendingStep = false := by
  simp [idle]

theorem isLoaded_eq_true_iff {s : State} : isLoaded s = true ↔ s.status ≠ .unloaded := by simp [isLoaded]

theorem openToHost_eq_true_iff {s : State} : openToHost s = true ↔ s.status ≠ .running ∧ s.status ≠ .unloaded := by
  simp [openToHost, isLoaded]

theorem idle_of_running {s : State} (h : s.status = .running) : idle s = false := by simp [idle, h]

theorem idle_of_pendingStep {s : State} (h : s.pendingStep = true) : idle s = false := by simp [idle, h]

theorem command_load {s : State} (h : s.status ≠ .running) (img : List Word) :
    command (.load img) s = (loadImage img s, .done) := by simp [command, h]

theorem command_run {s : State} (h : s.status = .ready) : command .run s = (s.setStatus .running, .running) := by
  simp [command, h]

theorem command_step {s : State} (h : s.status = .ready) : command .step s = stepAndReport s := by simp [command, h]

theorem command_setPc {s : State} (h : s.status = .ready ∨ s.status = .halted) (a : Word) :
    command (.setPc a) s = ((s.setPc a).setStatus .ready, .done) := by simp [command, h]

theorem command_peek {s : State} (h : openToHost s = true) (a : Word) : command (.peek a) s = peekCommand a s := by
  simp [command, h]

theorem command_poke {s : State} (h : openToHost s = true) (a v : Word) :
    command (.poke a v) s = pokeCommand a v s := by simp [command, h]

section
variable {s : State} (hloaded : s.status ≠ .unloaded) (hrun : s.status ≠ .running) (hpending : s.pendingStep = false)
include hloaded hrun hpending

theorem command_resetMemOnly : command (.reset .memOnly) s = (resetMemOnly s, .done) := by
  rw [command, idle_eq_true_iff.2 ⟨hrun, hpending⟩, isLoaded_eq_true_iff.2 hloaded]
  rfl

theorem command_resetFull : command (.reset .full) s = (resetFull s, .done) := by
  rw [command, idle_eq_true_iff.2 ⟨hrun, hpending⟩, isLoaded_eq_true_iff.2 hloaded]
  rfl

end

theorem command_reset_refused {s : State} (h : idle s = false) (scope : ResetScope) :
    command (.reset scope) s = (s, .refused) := by cases scope <;> simp [command, h]

theorem command_setPc_refused {s : State} (h : s.status = .faulted ∨ s.status = .running) (a : Word) :
    command (.setPc a) s = (s, .refused) := by rcases h with h | h <;> simp [command, h]

theorem command_of_running {s : State} (h : s.status = .running) (c : Command) : command c s = (s, .refused) := by
  have hopen : openToHost s = false := by simp [openToHost, h]
  cases c with
  | reset scope => exact command_reset_refused (idle_of_running h) scope
  | setPc a => exact command_setPc_refused (.inr h) a
  | load | run | step => simp [command, h]
  | peek | poke | traceRead | dump => simp [command, hopen]
  | wire => simp [command, idle_of_running h]

theorem command_of_unloaded {s : State} (h : s.status = .unloaded) {c : Command} (hc : ∀ img, c ≠ .load img) :
    command c s = (s, .refused) := by
  have hopen : openToHost s = false := by simp [openToHost, isLoaded, h]
  have hloaded : isLoaded s = false := by simp [isLoaded, h]
  cases c with
  | load img => exact absurd rfl (hc img)
  | reset scope => cases scope <;> simp [command, hloaded]
  | setPc | run | step => simp [command, h]
  | peek | poke | traceRead | dump => simp [command, hopen]
  | wire => simp [command, hloaded]

/-- Settles O47: each command's own condition on the status. -/
theorem commandsAreAdmittedByStatus : Obligations.CommandsAreAdmittedByStatus := by
  intro s
  refine ⟨fun hready => ⟨?step, ?run⟩, fun h => command_setPc_refused h, command_of_running,
    fun hpending => command_reset_refused (idle_of_pendingStep hpending), command_run, fun h => command_setPc h⟩
  case step => simp [command, hready]
  case run => simp [command, hready]

/-! ### LOAD and the two RESETs -/

theorem read_restoreImage (s : State) (a : Nat) : (restoreImage s).mem.read a = s.image.getD a 0 := by
  have h := Memory.read_ofImage 0 s.image a
  rwa [if_pos (Nat.zero_le a)] at h

/-- Settles O45: the reset is admitted, and memory is the image laid out from address 0. -/
theorem memOnlyResetRestoresTheImage : Obligations.MemOnlyResetRestoresTheImage := fun s hloaded hrun hpending =>
  ⟨resetMemOnly s, command_resetMemOnly hloaded hrun hpending, read_restoreImage s, rfl, rfl, rfl, rfl, rfl, rfl, rfl,
    rfl⟩

/-- Settles O46: LOAD puts the new image in place and does the full reset, which is all RESET(Full) does. -/
theorem loadConstructsTheBlock : Obligations.LoadConstructsTheBlock := by
  refine fun s hrun => ⟨fun img => ⟨loadImage img s, command_load hrun img, rfl,
    read_restoreImage { s with image := img }, rfl, rfl, rfl, rfl, rfl, rfl, rfl⟩, fun hloaded hpending => ?_⟩
  rw [command_resetFull hloaded hrun hpending, command_load hrun]
  rfl

/-- Settles O56: an unloaded block has no status any other command asks for. -/
theorem beforeTheFirstLoadOnlyLoad : Obligations.BeforeTheFirstLoadOnlyLoad :=
  fun s h => ⟨fun _ => command_of_unloaded h, fun img => ⟨loadImage img s, command_load (by simp [h]) img, rfl, rfl⟩⟩

/-! ### STEP and RUN -/

theorem stepAndReport_of_ready {s t : State} (h : s.status = .ready) (ht : step s = .next t) :
    stepAndReport s = (t, stepReply t) := by simp [stepAndReport, ht, h]

theorem stepAndReport_of_running {s t : State} (h : s.status = .running) (ht : step s = .next t) :
    stepAndReport s = (t, runReply t) := by simp [stepAndReport, ht, h]

theorem proceed_of_not_idle {s : State} (h : idle s = false) : proceed s = stepAndReport s := by simp [proceed, h]

theorem runReply_of_running {t : State} (h : t.status = .running) : runReply t = .running := by simp only [runReply, h]

theorem runReply_of_halted {t : State} (h : t.status = .halted) : runReply t = .ended .halted none := by
  simp only [runReply, h]

theorem runReply_of_faulted {t : State} (h : t.status = .faulted) : runReply t = .ended .faulted t.fault := by
  simp only [runReply, h]

/-- Settles O48: STEP and the step a pending STEP goes on with make the same report. -/
theorem stepCommandTakesOneStep : Obligations.StepCommandTakesOneStep := by
  intro s t hready ht
  have hreport := stepAndReport_of_ready hready ht
  exact ⟨(command_step hready).trans hreport,
    fun hpending => (proceed_of_not_idle (idle_of_pendingStep hpending)).trans hreport⟩

/-- Settles O57: a RUN goes on by one step and reports by the status that step leaves. -/
theorem runReportsEachStep : Obligations.RunReportsEachStep := by
  intro s t hrun ht
  have hproceed : proceed s = (t, runReply t) :=
    (proceed_of_not_idle (idle_of_running hrun)).trans (stepAndReport_of_running hrun ht)
  rw [hproceed]
  exact ⟨fun h => by rw [runReply_of_running h], fun h => by rw [runReply_of_halted h],
    fun h => by rw [runReply_of_faulted h]⟩

/-- A run that has ended within `n` steps is at its end however much longer one waits. -/
theorem runCommand_of_ended {n m : Nat} {s t : State} (hready : s.status = .ready)
    (hrun : runFor n (s.setStatus .running) = t) (hnm : n ≤ m) (ht : t.status = .halted ∨ t.status = .faulted) :
    runCommand m s = (t, runReply t) := by
  have hstopped : ∀ u, step t ≠ .next u := by
    intro u hu
    rcases admitted_of_step hu with h | h <;> simp [h] at ht
  simp [runCommand, hready, runFor_of_le hnm hrun hstopped]

/-- Settles O58: no step is admitted from Halted or Faulted, so the run stays where it ended. -/
theorem runReturnsHowItEnded : Obligations.RunReturnsHowItEnded := fun n m s t hready hrun hnm =>
  ⟨fun h => by rw [runCommand_of_ended hready hrun hnm (.inl h), runReply_of_halted h],
    fun h => by rw [runCommand_of_ended hready hrun hnm (.inr h), runReply_of_faulted h]⟩

/-! ### PEEK and POKE -/

theorem peekCommand_of_accessOk {s : State} {a : Word} (h : AccessOk s a) :
    peekCommand a s = (grownBy s [a], .word (s.mem.read a.toNat)) := by rw [peekCommand, memRead_of_accessOk h]

theorem pokeCommand_of_accessOk {s : State} {a : Word} (h : AccessOk s a) (v : Word) : pokeCommand a v s =
    ((grownBy s [a]).setMem (s.mem.write a.toNat v),
      .previous (if a.toNat < s.memLen then some (s.mem.read a.toNat) else none)) := by
  rw [pokeCommand, memWrite_of_accessOk h]
  simp only [← Nat.not_lt, ite_not]

theorem peekCommand_negative {s : State} {a : Word} (h : a.toInt < 0) :
    peekCommand a s = (s, .accessError .addressError (some a)) := by rw [peekCommand, memRead_negative h]

theorem pokeCommand_negative {s : State} {a : Word} (h : a.toInt < 0) (v : Word) :
    pokeCommand a v s = (s, .accessError .addressError (some a)) := by rw [pokeCommand, memWrite_negative v h]

/-- Touching a cell again grows nothing, whatever has been written meanwhile. -/
theorem grownBy_touched (s : State) (a : Word) (m : Memory) :
    grownBy ((grownBy s [a]).setMem m) [a] = (grownBy s [a]).setMem m := by
  have hlen : memLenAfter (memLenAfter s.memLen [a]) [a] = memLenAfter s.memLen [a] := by simp
  exact congrArg ((grownBy s [a]).setMem m).setMemLen hlen

/-- Settles O49: POKE has grown memory to the cell, so PEEK there reads what was written and grows nothing. -/
theorem peekReturnsWhatPokeWrote : Obligations.PeekReturnsWhatPokeWrote := by
  intro s a v hloaded hrun hwf
  have hopen : openToHost s = true := openToHost_eq_true_iff.2 ⟨hrun, hloaded⟩
  constructor
  · intro ha
    refine ⟨(grownBy s [a]).setMem (s.mem.write a.toNat v), ?poke, ?peek, rfl, rfl, rfl⟩
    case poke => rw [command_poke hopen, pokeCommand_of_accessOk ha]
    case peek =>
      have ha' : AccessOk ((grownBy s [a]).setMem (s.mem.write a.toNat v)) a := ha
      rw [command_peek (s := (grownBy s [a]).setMem _) hopen, peekCommand_of_accessOk ha', grownBy_touched,
        State.setMem_mem, Memory.read_write hwf, if_pos rfl]
  · intro ha
    rw [command_poke hopen, command_peek hopen]
    exact ⟨pokeCommand_negative ha v, peekCommand_negative ha⟩

end Sys2Proof.Machine
end

section
/-! PROOFS. The host commands and the invariant (spec/10_state.md R13, R14, R18; spec/47_host_commands.md R110 to R119):
what each admitted command leaves meets it. -/

namespace Sys2Proof.Machine

theorem memoryOk_restoreImage {s : State} (h : s.image.length ≤ 2 ^ 63) : MemoryOk (restoreImage s) where
  wf := Memory.wf_ofImage 0 s.image
  listed c hc := by
    have hlen : (restoreImage s).memLen = s.image.length := rfl
    simpa [hlen] using (Memory.ofImage_range hc).2
  addressable := h
  image := h
  capacity _ _ := Nat.le_max_right ..

/-- The memory part speaks of these four fields alone. -/
theorem MemoryOk.congr {s t : State} (h : MemoryOk s) (hmem : t.mem = s.mem) (hlen : t.memLen = s.memLen)
    (himage : t.image = s.image) (hconfig : t.config = s.config) : MemoryOk t := by
  obtain ⟨hwf, hlisted, haddressable, hlength, hcapacity⟩ := h
  rw [← hmem] at hwf hlisted
  rw [← hlen] at hlisted haddressable hcapacity
  rw [← himage] at hlength hcapacity
  rw [← hconfig] at hcapacity
  exact ⟨hwf, hlisted, haddressable, hlength, hcapacity⟩

/-- In a status in which a step is admitted no record is due, and a step may wait. -/
theorem inv_of_admitted {s : State} (h : MemoryOk s) (hs : s.status = .ready ∨ s.status = .running)
    (hf : s.fault = none) : Inv s :=
  inv_iff.2 ⟨h, faultRecordOk_of_none hf (by rcases hs with hs | hs <;> simp [hs]), .inr hs⟩

theorem Inv.fault_eq_none_of_not_faulted {s : State} (h : Inv s) (hs : s.status ≠ .faulted) : s.fault = none := by
  obtain ⟨_, ⟨hf, _⟩, _⟩ := inv_iff.1 h
  simpa using mt hf.2 hs

theorem inv_resetMemOnly {s : State} (h : s.image.length ≤ 2 ^ 63) : Inv (resetMemOnly s) :=
  inv_of_admitted ((memoryOk_restoreImage h).congr rfl rfl rfl rfl) (.inl rfl) rfl

theorem inv_resetFull {s : State} (h : s.image.length ≤ 2 ^ 63) : Inv (resetFull s) :=
  inv_of_admitted ((memoryOk_restoreImage h).congr rfl rfl rfl rfl) (.inl rfl) rfl

theorem MemoryOk.of_write {s : State} {a : Word} (h : MemoryOk s) (ha : AccessOk s a) (v : Word) :
    MemoryOk ((grownBy s [a]).setMem (s.mem.write a.toNat v)) := by
  have hg : MemoryOk (grownBy s [a]) := h.of_growth (by simpa [AllAccessOk] using ha)
  refine ⟨Memory.wf_write h.wf a.toNat v, fun c hc => ?listed, hg.addressable, hg.image, hg.capacity⟩
  case listed =>
    rcases Memory.mem_write hc with hc | hc
    · exact hg.listed c hc
    · exact hc ▸ lt_memLenAfter (by simp)

theorem Inv.of_peek {s : State} (h : Inv s) (a : Word) : Inv (peekCommand a s).1 := by
  obtain ⟨hm, hf, hw⟩ := inv_iff.1 h
  rcases memRead_cases a s with ⟨ha, e⟩ | ⟨_, e, _⟩ <;> rw [peekCommand, e]
  · exact inv_iff.2 ⟨hm.of_growth (by simpa [AllAccessOk] using ha), hf, hw⟩
  · exact h

theorem Inv.of_poke {s : State} (h : Inv s) (a v : Word) : Inv (pokeCommand a v s).1 := by
  obtain ⟨hm, hf, hw⟩ := inv_iff.1 h
  rcases memWrite_cases a v s with ⟨ha, e⟩ | ⟨_, e, _⟩ <;> rw [pokeCommand, e]
  · exact inv_iff.2 ⟨hm.of_write ha v, hf, hw⟩
  · exact h

theorem Inv.of_stepAndReport {s : State} (h : Inv s) : Inv (stepAndReport s).1 := by
  unfold stepAndReport
  cases ht : step s with
  | next t => exact everyStepKeepsTheInvariant s t h ht
  | fault r => exact h
  | refused r => exact h

/-- SETPC and RUN: a block that has not faulted has no record, whatever its `pc`. -/
theorem Inv.of_setPc_setStatus {s : State} (h : Inv s) (hs : s.status ≠ .faulted) (a : Word) {x : Status}
    (hx : x = .ready ∨ x = .running) : Inv ((s.setPc a).setStatus x) :=
  inv_of_admitted ((inv_iff.1 h).1.congr rfl rfl rfl rfl) hx (h.fault_eq_none_of_not_faulted hs)

/-- A refused command changes nothing, so only what an admitted one leaves is in question. -/
theorem inv_of_admission {s : State} (h : Inv s) {b : Bool} {t : State × Reply} (ht : b = true → Inv t.1) :
    Inv (if b then t else (s, .refused)).1 := by
  cases b with
  | true => exact ht rfl
  | false => exact h

/-- Settles O50: command by command, what it leaves when it is admitted. -/
theorem commandsKeepTheInvariant : Obligations.CommandsKeepTheInvariant := by
  intro c s h hload
  have himage : s.image.length ≤ 2 ^ 63 := (inv_iff.1 h).1.image
  cases c with
  | load img => exact inv_of_admission h fun _ => inv_resetFull (s := { s with image := img }) (hload img rfl)
  | reset scope =>
    cases scope with
    | memOnly => exact inv_of_admission h fun _ => inv_resetMemOnly himage
    | full => exact inv_of_admission h fun _ => inv_resetFull himage
  | setPc a =>
    refine inv_of_admission h fun hs => h.of_setPc_setStatus ?_ a (.inl rfl)
    intro hfaulted
    simp [hfaulted] at hs
  | run =>
    refine inv_of_admission h fun hs => h.of_setPc_setStatus ?_ s.pc (.inr rfl)
    intro hfaulted
    simp [hfaulted] at hs
  | step => exact inv_of_admission h fun _ => h.of_stepAndReport
  | peek a => exact inv_of_admission h fun _ => h.of_peek a
  | poke a v => exact inv_of_admission h fun _ => h.of_poke a v
  | traceRead | dump => exact inv_of_admission h fun _ => h
  | wire i o => exact inv_of_admission h fun _ => h.setPorts i o

end Sys2Proof.Machine
end

section
/-! PROOFS. Where an instruction faults (spec/60_exceptions.md R130, R132, R137 to R139): each operation is cut at the
operand, the result or the `pc` update that raises, and the common path enters the fault there. -/

namespace Sys2Proof.Machine

/-! ### The instructions by their operands -/

/-- The eight instructions whose operand 1 is a source. -/
def ReadsFirstSource (m1 m2 m3 : Mode) (i : Instr) : Prop :=
  i = .add m1 m2 m3 ∨ i = .mul m1 m2 m3 ∨ i = .output m1 m2 m3 ∨ i = .jumpIfNotZero m1 m2 m3 ∨
    i = .jumpIfZero m1 m2 m3 ∨ i = .lessThan m1 m2 m3 ∨ i = .equalTo m1 m2 m3 ∨ i = .adjustRelativeBase m1 m2 m3

/-- The instructions that come to read operand 2, a jump only when it is taken (D10). -/
def ReadsSecondSource (m1 m2 m3 : Mode) (s : State) (i : Instr) : Prop :=
  i = .add m1 m2 m3 ∨ i = .mul m1 m2 m3 ∨ i = .lessThan m1 m2 m3 ∨ i = .equalTo m1 m2 m3 ∨
    (i = .jumpIfNotZero m1 m2 m3 ∧ sourceValue s 1 m1 ≠ 0) ∨ (i = .jumpIfZero m1 m2 m3 ∧ sourceValue s 1 m1 = 0)

/-- The four instructions that store the result of an operation on two sources. -/
def StoresResult (m1 m2 m3 : Mode) (i : Instr) : Prop :=
  i = .add m1 m2 m3 ∨ i = .mul m1 m2 m3 ∨ i = .lessThan m1 m2 m3 ∨ i = .equalTo m1 m2 m3

theorem StoresResult.bodyOf_eq {m1 m2 m3 : Mode} {i : Instr} (h : StoresResult m1 m2 m3 i) :
    ∃ op, bodyOf i = storeResult op m1 m2 m3 := by
  rcases h with rfl | rfl | rfl | rfl <;> exact ⟨_, rfl⟩

/-! ### An operation up to the operand that raises -/

/-- The operation begins with its first source. -/
theorem bodyOf_of_readsFirstSource {m1 m2 m3 : Mode} {i : Instr} (h : ReadsFirstSource m1 m2 m3 i) :
    ∃ f, ∀ s, bodyOf i s = (source 1 m1 s).bind f := by
  rcases h with rfl | rfl | rfl | rfl | rfl | rfl | rfl | rfl <;> exact ⟨_, fun _ => rfl⟩

theorem storeResult_of_sourceOk {op : Word → Word → State → Result Word} {m1 m2 m3 : Mode} {s : State}
    (h1 : SourceOk s 1 m1) :
    ∃ f, storeResult op m1 m2 m3 s = (source 2 m2 (grownBy s (sourceCells s 1 m1))).bind f := by
  rw [storeResult, source_of_sourceOk h1, Result.bind_ok]
  exact ⟨_, rfl⟩

theorem jumpWhen_of_sourceOk {cond : Word → Bool} {m1 m2 : Mode} {s : State} (h1 : SourceOk s 1 m1)
    (hcond : cond (sourceValue s 1 m1) = true) :
    ∃ f, jumpWhen cond m1 m2 s = (source 2 m2 (grownBy s (sourceCells s 1 m1))).bind f := by
  rw [jumpWhen, source_of_sourceOk h1, Result.bind_ok, if_pos hcond]
  exact ⟨_, rfl⟩

/-- After a good first source the operation goes on with its second. -/
theorem bodyOf_of_readsSecondSource {m1 m2 m3 : Mode} {s : State} {i : Instr} (h : ReadsSecondSource m1 m2 m3 s i)
    (h1 : SourceOk s 1 m1) : ∃ f, bodyOf i s = (source 2 m2 (grownBy s (sourceCells s 1 m1))).bind f := by
  rcases h with rfl | rfl | rfl | rfl | ⟨rfl, hne⟩ | ⟨rfl, heq⟩
  · exact storeResult_of_sourceOk h1
  · exact storeResult_of_sourceOk h1
  · exact storeResult_of_sourceOk h1
  · exact storeResult_of_sourceOk h1
  · exact jumpWhen_of_sourceOk h1 (by simpa [isNonZero_eq] using hne)
  · exact jumpWhen_of_sourceOk h1 (by simpa [isZero_eq] using heq)

/-- After two good sources a storing operation goes on with its target. -/
theorem bodyOf_of_storesResult {m1 m2 m3 : Mode} {s : State} {i : Instr} (h : StoresResult m1 m2 m3 i)
    (h1 : SourceOk s 1 m1) (h2 : SourceOk s 2 m2) :
    ∃ f, bodyOf i s = (destination 3 m3 (grownBy s (sourceCells s 1 m1 ++ sourceCells s 2 m2))).bind f := by
  obtain ⟨op, hbody⟩ := h.bodyOf_eq
  rw [hbody, storeResult, source_of_sourceOk h1, Result.bind_ok, source_of_sourceOk (source_good_grownBy.2 h2),
    Result.bind_ok, sourceCells_grownBy, grownBy_grownBy]
  exact ⟨_, rfl⟩

/-- An `Input` whose port has delivered its Word goes on with its target. -/
theorem inputBody_of_delivered {m1 : Mode} {s : State} {x : Word} {p : InPort} (hp : pollIn s.inPort = (.value x, p)) :
    ∃ f, inputBody m1 s = (destination 1 m1 (s.setInPort p)).bind f := by
  rw [inputBody, inRead_of_value hp, Result.bind_ok]
  exact ⟨_, rfl⟩

theorem destination_of_cellFails {s : State} {k : Nat} {bad : Word} {kind : FaultKind} (m : Mode)
    (h : CellFails s k bad kind) : destination k m s = .raise ⟨kind, some bad, none⟩ s := by
  rw [destination, fetchOperand_of_cellFails h, Result.bind_raise]

/-! ### Operands do not depend on the growth or the trace -/

theorem sourceFails_begun {s : State} {as : List Word} {k : Nat} {m : Mode} {bad : Word} {kind : FaultKind}
    {cells : List Word} :
    SourceFails (grownBy (begun s) as) k m bad kind cells ↔ SourceFails s k m bad kind cells := by
  cases m <;> exact Iff.rfl

/-! ### The fault of the whole instruction -/

section
variable {i : Instr} {s : State} {c : Cause} {cells : List Word} (hpc : AccessOk s s.pc)
include hpc

/-- An operation that raises with memory grown by the cells it has read. -/
theorem exec_of_raise (hbody : bodyOf i (begun s) = .raise c (grownBy (begun s) cells)) :
    exec i s = .next (faultedWith (started s cells) (some (s.mem.read s.pc.toNat)) c.kind c.bad c.io) := by
  rw [exec_eq_runInstr, runInstr_of_raise hpc hbody, enterFault_grownBy_begun]

/-- An `Input` that raises once it has polled its port. -/
theorem exec_input_of_raise {m1 m2 m3 : Mode} {p : InPort}
    (hbody : inputBody m1 (begun s) = .raise c (grownBy ((begun s).setInPort p) cells)) :
    exec (.input m1 m2 m3) s = .next (faultedWith { started s cells with inPort := p }
      (some (s.mem.read s.pc.toNat)) c.kind c.bad c.io) := by
  rw [exec_input, runInstr_of_raise hpc hbody]
  rfl

variable {m1 m2 m3 : Mode}

theorem exec_of_firstSource_raises (hi : ReadsFirstSource m1 m2 m3 i)
    (h : source 1 m1 (begun s) = .raise c (grownBy (begun s) cells)) :
    exec i s = .next (faultedWith (started s cells) (some (s.mem.read s.pc.toNat)) c.kind c.bad c.io) := by
  obtain ⟨f, hbody⟩ := bodyOf_of_readsFirstSource hi
  exact exec_of_raise hpc (by rw [hbody, h, Result.bind_raise])

theorem exec_of_secondSource_raises (hi : ReadsSecondSource m1 m2 m3 s i) (h1 : SourceOk s 1 m1)
    (h : source 2 m2 (grownBy (begun s) (sourceCells s 1 m1)) =
      .raise c (grownBy (grownBy (begun s) (sourceCells s 1 m1)) cells)) :
    exec i s = .next (faultedWith (started s (sourceCells s 1 m1 ++ cells)) (some (s.mem.read s.pc.toNat)) c.kind c.bad
      c.io) := by
  have hi : ReadsSecondSource m1 m2 m3 (begun s) i := by simpa [ReadsSecondSource] using hi
  obtain ⟨f, hbody⟩ := bodyOf_of_readsSecondSource hi (source_good_begun.2 h1)
  exact exec_of_raise hpc (by rw [hbody, sourceCells_begun, h, Result.bind_raise, grownBy_grownBy])

theorem exec_of_target_raises (hi : StoresResult m1 m2 m3 i) (h1 : SourceOk s 1 m1) (h2 : SourceOk s 2 m2)
    (h : destination 3 m3 (grownBy (begun s) (sourceCells s 1 m1 ++ sourceCells s 2 m2)) =
      .raise c (grownBy (grownBy (begun s) (sourceCells s 1 m1 ++ sourceCells s 2 m2)) cells)) :
    exec i s = .next (faultedWith (started s (sourceCells s 1 m1 ++ sourceCells s 2 m2 ++ cells))
      (some (s.mem.read s.pc.toNat)) c.kind c.bad c.io) := by
  obtain ⟨f, hbody⟩ := bodyOf_of_storesResult hi (source_good_begun.2 h1) (source_good_begun.2 h2)
  exact exec_of_raise hpc (by
    rw [hbody, sourceCells_begun, sourceCells_begun, h, Result.bind_raise, grownBy_grownBy])

theorem exec_input_of_target_raises {x : Word} {p : InPort} (hp : pollIn s.inPort = (.value x, p))
    (h : destination 1 m1 ((begun s).setInPort p) = .raise c (grownBy ((begun s).setInPort p) cells)) :
    exec (.input m1 m2 m3) s = .next (faultedWith { started s cells with inPort := p }
      (some (s.mem.read s.pc.toNat)) c.kind c.bad c.io) := by
  obtain ⟨f, hbody⟩ := inputBody_of_delivered (m1 := m1) (s := begun s) hp
  exact exec_input_of_raise hpc (by rw [hbody, h, Result.bind_raise])

end

/-! ### Operands that cannot be read -/

/-- Settles O28: all eight begin with their first source, which fails in `begun s` as in `s`. -/
theorem firstSourceFaults : Obligations.FirstSourceFaults := by
  intro m1 m2 m3 s bad k cells i hi hpc hfails
  exact exec_of_firstSource_raises hpc hi (source_of_sourceFails (sourceFails_begun (as := []).2 hfails))

/-- Settles O29: after the first source, what a jump tests is the value it read. -/
theorem secondSourceFaults : Obligations.SecondSourceFaults := by
  intro m1 m2 m3 s bad k cells i hi hpc h1 hfails
  exact exec_of_secondSource_raises hpc hi h1 (source_of_sourceFails (sourceFails_begun.2 hfails))

/-- Settles O53: the target's cell is fetched after both sources, and for `Input` after the poll. -/
theorem targetCellFaults : Obligations.TargetCellFaults := by
  refine fun m1 m2 m3 s bad k hpc => ⟨fun i hi h1 h2 hfails => ?storing, fun x p hp hfails => ?input⟩
  case storing =>
    have hfails : CellFails (grownBy (begun s) (sourceCells s 1 m1 ++ sourceCells s 2 m2)) 3 bad k := hfails
    have h := exec_of_target_raises (cells := []) hpc hi h1 h2 (destination_of_cellFails m3 hfails)
    rwa [List.append_nil] at h
  case input =>
    have hfails : CellFails ((begun s).setInPort p) 1 bad k := hfails
    exact exec_input_of_target_raises (cells := []) hpc hp (destination_of_cellFails m1 hfails)

/-- Settles O54: the sums are formed of `pc`, `rb` and the raw operand, which growth, trace and port leave alone. -/
theorem addressSumOverflowFaults : Obligations.AddressSumOverflowFaults := by
  refine fun m1 m2 m3 s cells hpc => ⟨fun i hi h => ?first, fun i hi h1 h => ?second, fun i hi h1 h2 h => ?target,
    fun x p hp h => ?input⟩
  case first =>
    have h : OperandOverflows (begun s) 1 m1 cells := h
    exact exec_of_firstSource_raises hpc hi (source_of_overflow h)
  case second =>
    have h : OperandOverflows (grownBy (begun s) (sourceCells s 1 m1)) 2 m2 cells := h
    exact exec_of_secondSource_raises hpc hi h1 (source_of_overflow h)
  case target =>
    have h : OperandOverflows (grownBy (begun s) (sourceCells s 1 m1 ++ sourceCells s 2 m2)) 3 m3 cells := h
    exact exec_of_target_raises hpc hi h1 h2 (destination_of_overflow h)
  case input =>
    have h : OperandOverflows ((begun s).setInPort p) 1 m1 cells := h
    exact exec_input_of_target_raises hpc hp (destination_of_overflow h)

/-! ### Results that overflow -/

theorem mul64_of_overflow {s : State} {x y : Word} (h : ¬ ProductOk s x y) :
    mul64 x y s = .raise ⟨.arithOverflow, none, none⟩ s :=
  (mul64_cases x y s).elim (fun h' => absurd h'.1 h) fun h' => h'.2

theorem advance_of_overflow {n : Nat} {s : State} (h : ¬ SumOk s s.pc (BitVec.ofNat 64 n)) :
    advance n s = .raise ⟨.arithOverflow, none, none⟩ s :=
  (advance_cases n s).elim (fun h' => absurd h'.1 h) fun h' => h'.2

/-- A storing instruction with good operands, whose operation or whose end raises with nothing more done. -/
theorem exec_of_result_raises {op : Word → Word → State → Result Word} {m1 m2 m3 : Mode} {a : Word} {s : State}
    {i : Instr} {c : Cause} (hi : bodyOf i = storeResult op m1 m2 m3) (hpc : AccessOk s s.pc) (h1 : SourceOk s 1 m1)
    (h2 : SourceOk s 2 m2) (h3 : TargetResolves s 3 m3 a)
    (h : ((op (sourceValue s 1 m1) (sourceValue s 2 m2) (grownBy (begun s) (fourCellReads s m1 m2))).bind
        fun r s => store a r 4 s) = .raise c (grownBy (begun s) (fourCellReads s m1 m2))) :
    exec i s = .next (faultedWith (started s (fourCellReads s m1 m2)) (some (s.mem.read s.pc.toNat)) c.kind c.bad
      c.io) := by
  refine exec_of_raise hpc ?_
  rw [hi, storeResult_of_operands (source_good_begun.2 h1) (source_good_begun.2 h2) (target_resolves_begun.2 h3),
    fourCellReads_begun, sourceValue_begun, sourceValue_begun, h]

theorem adjustBody_of_rb_overflow {m1 : Mode} {s : State} (h1 : SourceOk s 1 m1)
    (hrb : ¬ SumOk s s.rb (sourceValue s 1 m1)) :
    adjustBody m1 s = .raise ⟨.arithOverflow, none, none⟩ (grownBy s (sourceCells s 1 m1)) := by
  have hrb : ¬ SumOk (grownBy s (sourceCells s 1 m1)) s.rb (sourceValue s 1 m1) := hrb
  rw [adjustBody, source_of_sourceOk h1, Result.bind_ok, grownBy_rb, add64_of_overflow hrb, Result.bind_raise]

/-- Settles O31: the sum and the product are formed after the target is resolved, the new `rb` after its operand. -/
theorem overflowTrapsBeforeTheWrite : Obligations.OverflowTrapsBeforeTheWrite := by
  refine fun m1 m2 m3 s hpc h1 => ⟨?storing, fun hrb => ?adjust⟩
  case storing =>
    rintro i a (⟨rfl, hsum⟩ | ⟨rfl, hprod⟩) h2 h3
    · have htrap := add64_of_overflow (s := grownBy (begun s) (fourCellReads s m1 m2)) hsum
      exact exec_of_result_raises (i := .add m1 m2 m3) rfl hpc h1 h2 h3 (congrArg (Result.bind · _) htrap)
    · have htrap := mul64_of_overflow (s := grownBy (begun s) (fourCellReads s m1 m2)) hprod
      exact exec_of_result_raises (i := .mul m1 m2 m3) rfl hpc h1 h2 h3 (congrArg (Result.bind · _) htrap)
  case adjust =>
    have hrb : ¬ SumOk (begun s) (begun s).rb (sourceValue (begun s) 1 m1) := by rwa [sourceValue_begun]
    have hbody := adjustBody_of_rb_overflow (source_good_begun.2 h1) hrb
    rw [sourceCells_begun] at hbody
    exact exec_of_raise (i := .adjustRelativeBase m1 m2 m3) hpc hbody

/-! ### A `pc` update that overflows -/

/-- A storing instruction that has its result `r` and a good target: the write is taken back (R139). -/
theorem exec_of_result_and_pc_overflow {op : Word → Word → State → Result Word} {m1 m2 m3 : Mode} {a r : Word}
    {s : State} {i : Instr} (hi : bodyOf i = storeResult op m1 m2 m3) (hpc : AccessOk s s.pc) (h1 : SourceOk s 1 m1)
    (h2 : SourceOk s 2 m2) (h3 : TargetOk s 3 m3 a) (hsum : ¬ SumOk s s.pc 4)
    (hop : op (sourceValue s 1 m1) (sourceValue s 2 m2) (grownBy (begun s) (fourCellReads s m1 m2)) =
      .ok r (grownBy (begun s) (fourCellReads s m1 m2))) :
    exec i s = .next (faultedWith (started s (fourCellReads s m1 m2)) (some (s.mem.read s.pc.toNat)) .arithOverflow none
      none) := by
  obtain ⟨hresolves, ha⟩ := h3
  have htrap := store_of_pc_overflow (s := grownBy (begun s) (fourCellReads s m1 m2)) (r := r) (n := 4) ha hsum
  exact exec_of_result_raises hi hpc h1 h2 hresolves (by rw [hop, Result.bind_ok, htrap])

theorem exec_input_of_pc_overflow {m1 m2 m3 : Mode} {a x : Word} {p : InPort} {s : State} (hpc : AccessOk s s.pc)
    (hp : pollIn s.inPort = (.value x, p)) (h1 : TargetOk s 1 m1 a) (hsum : ¬ SumOk s s.pc 2) :
    exec (.input m1 m2 m3) s = .next (faultedWith { started s [operandCell s 1] with inPort := p }
      (some (s.mem.read s.pc.toNat)) .arithOverflow none none) := by
  obtain ⟨hresolves, ha⟩ := h1
  have ha : AccessOk (grownBy ((begun s).setInPort p) [operandCell s 1]) a := ha
  have hbody : inputBody m1 (begun s) =
      .raise ⟨.arithOverflow, none, none⟩ (grownBy ((begun s).setInPort p) [operandCell s 1]) := by
    rw [inputBody_of_value (s := begun s) hp (target_resolves_begun.2 hresolves), operandCell_begun]
    exact store_of_pc_overflow ha hsum
  exact exec_input_of_raise hpc hbody

section
variable {m1 : Mode} {s : State} (h1 : SourceOk s 1 m1)
include h1

theorem adjustBody_of_pc_overflow (hrb : SumOk s s.rb (sourceValue s 1 m1)) (hpc : ¬ SumOk s s.pc 2) :
    adjustBody m1 s = .raise ⟨.arithOverflow, none, none⟩ (grownBy s (sourceCells s 1 m1)) := by
  have hrb : SumOk (grownBy s (sourceCells s 1 m1)) s.rb (sourceValue s 1 m1) := hrb
  have hadvance := advance_of_overflow (n := 2)
    (s := (grownBy s (sourceCells s 1 m1)).setRb (s.rb + sourceValue s 1 m1)) hpc
  rw [adjustBody, source_of_sourceOk h1, Result.bind_ok, grownBy_rb, add64_of_sumOk hrb, Result.bind_ok, hadvance,
    Result.undoTo_raise]

theorem outputBody_of_pc_overflow (hp : (pollOut s.outPort).1 = .accepted) (hpc : ¬ SumOk s s.pc 2) :
    outputBody m1 s = .raise ⟨.arithOverflow, none, none⟩ (grownBy s (sourceCells s 1 m1)) := by
  have hp : pollOut (grownBy s (sourceCells s 1 m1)).outPort = (.accepted, (pollOut s.outPort).2) := Prod.ext hp rfl
  have hadvance := advance_of_overflow (n := 2) (s := ((grownBy s (sourceCells s 1 m1)).setOutPort
    (pollOut s.outPort).2).setOutput ((grownBy s (sourceCells s 1 m1)).output ++ [sourceValue s 1 m1])) hpc
  rw [outputBody, source_of_sourceOk h1, Result.bind_ok, outWrite_of_accepted _ hp, Result.bind_ok, hadvance,
    Result.undoTo_raise]

theorem jumpWhen_of_pc_overflow {cond : Word → Bool} {m2 : Mode} (hcond : cond (sourceValue s 1 m1) = false)
    (hpc : ¬ SumOk s s.pc 3) :
    jumpWhen cond m1 m2 s = .raise ⟨.arithOverflow, none, none⟩ (grownBy s (sourceCells s 1 m1)) := by
  rw [jumpWhen_not_taken h1 hcond]
  exact advance_of_overflow (n := 3) (s := grownBy s (sourceCells s 1 m1)) hpc

end

/-- An instruction that stores nothing and has only its new `pc` left to form, which is no Word. -/
def OnlyPcOverflows (m1 m2 m3 : Mode) (s : State) (i : Instr) : Prop :=
  (i = .adjustRelativeBase m1 m2 m3 ∧ SumOk s s.rb (sourceValue s 1 m1) ∧ ¬ SumOk s s.pc 2) ∨
    (i = .output m1 m2 m3 ∧ (pollOut s.outPort).1 = .accepted ∧ ¬ SumOk s s.pc 2) ∨
    (i = .jumpIfNotZero m1 m2 m3 ∧ sourceValue s 1 m1 = 0 ∧ ¬ SumOk s s.pc 3) ∨
    (i = .jumpIfZero m1 m2 m3 ∧ sourceValue s 1 m1 ≠ 0 ∧ ¬ SumOk s s.pc 3)

theorem onlyPcOverflows_begun {m1 m2 m3 : Mode} {s : State} {i : Instr} :
    OnlyPcOverflows m1 m2 m3 (begun s) i ↔ OnlyPcOverflows m1 m2 m3 s i := by
  simp only [OnlyPcOverflows, sourceValue_begun]
  exact Iff.rfl

theorem bodyOf_of_pc_overflow {m1 m2 m3 : Mode} {s : State} {i : Instr} (hi : OnlyPcOverflows m1 m2 m3 s i)
    (h1 : SourceOk s 1 m1) :
    bodyOf i s = .raise ⟨.arithOverflow, none, none⟩ (grownBy s (sourceCells s 1 m1)) := by
  rcases hi with ⟨rfl, hrb, hpc⟩ | ⟨rfl, hp, hpc⟩ | ⟨rfl, heq, hpc⟩ | ⟨rfl, hne, hpc⟩
  · exact adjustBody_of_pc_overflow h1 hrb hpc
  · exact outputBody_of_pc_overflow h1 hp hpc
  · exact jumpWhen_of_pc_overflow h1 (by simpa [isNonZero_eq] using heq) hpc
  · exact jumpWhen_of_pc_overflow h1 (by simpa [isZero_eq] using hne) hpc

/-- Settles O55: whatever an operation did before its `pc` update traps is taken back, the poll of `Input` apart. -/
theorem pcUpdateOverflowFaults : Obligations.PcUpdateOverflowFaults := by
  refine fun m1 m2 m3 a s hpc => ⟨?storing, fun x p hp h1 hsum => exec_input_of_pc_overflow hpc hp h1 hsum,
    fun i hi h1 => ?nothingStored⟩
  case storing =>
    rintro i (⟨rfl, hadd⟩ | ⟨rfl, hmul⟩ | rfl | rfl) h1 h2 h3 hsum
    · exact exec_of_result_and_pc_overflow rfl hpc h1 h2 h3 hsum (add64_of_sumOk hadd)
    · exact exec_of_result_and_pc_overflow rfl hpc h1 h2 h3 hsum (mul64_of_productOk hmul)
    · exact exec_of_result_and_pc_overflow rfl hpc h1 h2 h3 hsum rfl
    · exact exec_of_result_and_pc_overflow rfl hpc h1 h2 h3 hsum rfl
  case nothingStored =>
    have hbody := bodyOf_of_pc_overflow (onlyPcOverflows_begun.2 hi) (source_good_begun.2 h1)
    rw [sourceCells_begun] at hbody
    exact exec_of_raise hpc hbody

end Sys2Proof.Machine
end

section
/-! PROOFS. Faults are precise (spec/60_exceptions.md R139, R140): what has happened to the block by the time a fault is
entered, whichever way the step came to it. -/

namespace Sys2Proof.Machine

/-- What a step that raises in `u` has kept of `s`; the trace is said apart. -/
structure KeptByFault (s u : State) : Prop where
  pc : u.pc = s.pc
  rb : u.rb = s.rb
  mem : u.mem = s.mem
  image : u.image = s.image
  output : u.output = s.output
  config : u.config = s.config
  memLen : s.memLen ≤ u.memLen

theorem KeptByFault.of_growth (s : State) (as : List Word) : KeptByFault s (grownBy s as) :=
  ⟨rfl, rfl, rfl, rfl, rfl, rfl, le_memLenAfter ..⟩

/-- An operation that raises has grown memory, made its trace entry and polled a port, no more (R139). -/
theorem KeptByFault.of_raise {i : Instr} {s u : State} (he : Effect i (begun s) u) (hleft : RaiseLeaves (begun s) u) :
    KeptByFault s u := by
  obtain ⟨hpc, _, hrb, hout, hmem⟩ := hleft
  exact ⟨hpc, hrb, hmem, he.image, hout, he.config, (he.instrFrame u.status u.fault none).memLen⟩

/-- An operation that completes does not fault the machine. -/
theorem Effect.status_ne_faulted {i : Instr} {s u : State} (h : Effect i (begun s) u)
    (hs : s.status = .ready ∨ s.status = .running) : u.status ≠ .faulted := by
  have hbegun : (begun s).status = s.status := rfl
  rcases h.status with hstatus | ⟨_, hstatus⟩
  · rcases hs with hs | hs <;> simp [hstatus, hbegun, hs]
  · simp [hstatus]

/-- A step that leaves the status Faulted has entered a fault: of the fetch or the decoder before the trace entry, or of
the decoded instruction after it. -/
theorem step_faulted_cases {s t : State} (h : step s = .next t) (ht : t.status = .faulted) :
    ∃ v c u, t = enterFault v c u ∧ KeptByFault s u ∧
      ((u.trace = s.trace ∧ (v = none ∨
          ∃ e, v = some (s.mem.read s.pc.toNat) ∧ decode (s.mem.read s.pc.toNat) = .error e)) ∨
        (u.trace = s.trace ++ [(s.pc, s.mem.read s.pc.toNat)] ∧ v = some (s.mem.read s.pc.toNat) ∧
          ∃ i, decode (s.mem.read s.pc.toNat) = .ok i)) := by
  obtain ⟨hs, ⟨_, rfl⟩ | ⟨_, ⟨k, _, rfl⟩ | ⟨_, e, hd, rfl⟩ | ⟨ha, i, hd, he⟩⟩⟩ := step_cases h
  · obtain ⟨_, _, _, _, _, _, hstatus, _⟩ := sameBlock_pollAgain s
    exact absurd (hstatus.symm.trans ht) (by rcases hs with hs | hs <;> simp [hs])
  · exact ⟨_, _, _, rfl, .of_growth s [], .inl ⟨rfl, .inl rfl⟩⟩
  · exact ⟨_, _, _, rfl, .of_growth s [s.pc], .inl ⟨rfl, .inr ⟨e, rfl, hd⟩⟩⟩
  · rcases exec_cases he with ⟨k, hna, _⟩ | ⟨_, ⟨u, rfl, hu⟩ | ⟨c, u, rfl, hu, hleft⟩ | ⟨d, p, o, rfl, _⟩⟩
    · exact absurd ha hna
    · exact absurd ht (hu.status_ne_faulted hs)
    · exact ⟨_, _, _, rfl, .of_raise hu hleft, .inr ⟨hu.trace, rfl, i, hd⟩⟩
    · exact absurd ht (by rcases hs with hs | hs <;> simp [waitOnPort, hs])

/-- Settles O34: fault entry itself writes the record, the status and the wait alone. -/
theorem faultsArePrecise : Obligations.FaultsArePrecise := by
  intro s t f hstep ht hf
  obtain ⟨v, c, u, rfl, ⟨hpc, hrb, hmem, himage, hout, hconfig, hlen⟩, htrace⟩ := step_faulted_cases hstep ht
  obtain rfl : FaultRecord.mk c.kind u.pc v c.bad c.io = f := Option.some.inj hf
  exact ⟨hpc, hrb, hmem, himage, hout, hconfig, hlen, hpc, htrace⟩

end Sys2Proof.Machine
end

section
/-! PROOFS. The capacity of channels (spec/60_exceptions.md R148, decision D24): a step sends at most one Word, and only
when its channel has room. -/

namespace Sys2Proof.Machine

/-! ### What a step sends -/

theorem exec_sends_when_accepted {i : Instr} {s t : State} (h : exec i s = .next t) :
    t.output = s.output ∨ ((pollOut s.outPort).1 = .accepted ∧ ∃ x, t.output = s.output ++ [x]) := by
  rcases exec_cases h with ⟨k, _, rfl, _⟩ | ⟨_, ⟨u, rfl, he⟩ | ⟨c, u, rfl, _, hleft⟩ | ⟨d, p, o, rfl, _⟩⟩
  · exact .inl rfl
  · exact he.output.imp id fun ⟨_, _, _, _, hp, _, hu⟩ => ⟨hp, _, hu⟩
  · obtain ⟨_, _, _, hu, _⟩ := hleft
    exact .inl hu
  · exact .inl rfl

/-- A step sends nothing, or one Word to a port that accepts. -/
theorem step_sends_when_accepted {s t : State} (h : step s = .next t) :
    t.output = s.output ∨ ((pollOut s.outPort).1 = .accepted ∧ ∃ x, t.output = s.output ++ [x]) := by
  obtain ⟨_, ⟨_, rfl⟩ | ⟨_, ⟨k, _, rfl⟩ | ⟨_, e, _, rfl⟩ | ⟨_, i, _, he⟩⟩⟩ := step_cases h
  · obtain ⟨_, _, _, _, _, _, _, _, hout, _⟩ := sameBlock_pollAgain s
    exact .inl hout
  · exact .inl rfl
  · exact .inl rfl
  · exact exec_sends_when_accepted he

/-! ### One channel -/

/-- The channel holds no more than its capacity lets it, or the one Word of a rendezvous. -/
def Channel.Within (c : Channel) : Prop := ∀ n, c.cap = some n → c.queue.length ≤ max n 1

theorem withinCapacity_iff {p : Pipeline} :
    WithinCapacity p ↔ ∀ (j : Nat) (c : Channel), p.channels[j]? = some c → c.Within := by
  constructor
  · intro h j c hc
    exact h c (List.mem_of_getElem? hc)
  · intro h c hc
    obtain ⟨j, hj⟩ := List.mem_iff_getElem?.1 hc
    exact h j c hj

theorem Channel.Within.afterReader {c : Channel} (h : c.Within) (t : State) : (c.afterReader t).Within := by
  cases hq : c.queue with
  | nil => rwa [afterReader_of_queue_nil hq]
  | cons x rest =>
    rw [afterReader_of_queue_cons hq]
    split
    · intro n hn
      have := h n hn
      rw [hq, List.length_cons] at this
      exact Nat.le_of_succ_le this
    · exact h

/-- A channel that takes a Word has room for it, or is empty (a rendezvous). -/
theorem Channel.length_lt_of_accepts {c : Channel} {atInput : Bool} (h : c.accepts atInput = true) {n : Nat}
    (hn : c.cap = some n) : c.queue.length < max n 1 := by
  cases n with
  | zero =>
    have hempty : c.queue = [] := by
      simp only [accepts, hn, Bool.and_eq_true, List.isEmpty_iff] at h
      exact h.1
    simp [hempty]
  | succ n =>
    have hroom : c.queue.length < n + 1 := by simpa [accepts, hn] using h
    exact Nat.lt_of_lt_of_le hroom (Nat.le_max_left ..)

theorem Channel.accepts_of_pollOut {c : Channel} {atInput : Bool} (h : (pollOut (c.asOutPort atInput)).1 = .accepted) :
    c.accepts atInput = true := by
  have h : (if c.closed then .error .channelClosed else if c.accepts atInput then .accepted else .notReady) =
    OutAnswer.accepted := h
  split at h
  · cases h
  · split at h
    · assumption
    · cases h

/-- A writer whose port is this channel's sends only what it has room for. -/
theorem Channel.Within.afterWriter {c : Channel} {s t : State} {atInput : Bool} (h : c.Within)
    (hst : t.output = s.output ∨
      ((pollOut (c.asOutPort atInput)).1 = .accepted ∧ ∃ x, t.output = s.output ++ [x])) :
    (c.afterWriter s t).Within := by
  intro n hn
  rcases hst with hsame | ⟨hp, x, hsent⟩
  · simpa [Channel.afterWriter, hsame] using h n hn
  · have hroom := length_lt_of_accepts (accepts_of_pollOut hp) hn
    simpa [Channel.afterWriter, hsent] using hroom

/-! ### One step of a pipeline -/

theorem Pipeline.wired_outPort {p : Pipeline} {k : Nat} {c : Channel} (hc : p.channels[k]? = some c) (s : State) :
    (p.wired k s).outPort = c.asOutPort (p.readerAtInput k) := by
  have : (p.wired k s).outPort = p.outPortOf k s := rfl
  rw [this, outPortOf, hc]

/-- Settles O52: the stepping stage takes from the channel before it and adds to the one after it, which has room. -/
theorem channelsStayWithinCapacity : Obligations.ChannelsStayWithinCapacity := by
  intro p k h
  rcases p.stepAt_cases k with ⟨_, e⟩ | ⟨s, t, hs, ht, e⟩ <;> rw [e]
  · exact h
  refine withinCapacity_iff.2 fun j c' hc' => ?_
  rw [List.getElem?_modify, Pipeline.channelsRead_getElem?, Option.map_eq_map, Option.map_map,
    Option.map_eq_some_iff] at hc'
  obtain ⟨c, hc, rfl⟩ := hc'
  have hwithin : c.Within := withinCapacity_iff.1 h j c hc
  by_cases hkj : k = j
  · subst hkj
    have hsent := step_sends_when_accepted ht
    rw [Pipeline.wired_outPort hc] at hsent
    simpa using hwithin.afterWriter (s := s) hsent
  · by_cases hread : k = j + 1
    · simpa [hkj, hread] using hwithin.afterReader t
    · simpa [hkj, hread] using hwithin

end Sys2Proof.Machine
end
